-- ==== Sys2Proof/Word.lean ====
section
/-! DEFINITION. The number types of the spec (00_scope.md R7, R8): a byte, a u32 and a u64 as bit vectors, and byte
sequences as lists, byte 0 first. -/

namespace Sys2Proof

/-- A byte: 8 bits (R7). -/
abbrev Byte := BitVec 8

/-- A u32 (R7). Its s32 reading is `BitVec.toInt`. -/
abbrev Word := BitVec 32

/-- A u64 (R7). -/
abbrev DWord := BitVec 64

/-- A byte sequence, index 0 first (R8). `s ∥ t` is `s ++ t`, `s[i..j]` is `(s.drop i).take (j + 1 - i)`. -/
abbrev Bytes := List Byte

/-- `zeros(n)` (R8). -/
def zeros (n : Nat) : Bytes := List.replicate n 0

/-- `s ^ t` on byte sequences of equal length (R8). -/
def xorBytes (s t : Bytes) : Bytes := List.zipWith (· ^^^ ·) s t

end Sys2Proof
end

