-- ==== Sys2Proof/Config.lean ====
section
/-! DEFINITION. The parameters of 00_scope.md R6: the fixed ones as constants, the ones a model takes as arguments as the
record `Params`, and what the spec leaves free as opaque constants. The external block cipher of 45_page.md R116 to R119
is a parameter as well: its port's types stand here. -/

namespace Sys2Proof

namespace Config

/-- DIGEST_BYTES (R6). -/
abbrev digestBytes : Nat := 16
/-- BLOCK_BYTES (R6). -/
abbrev blockBytes : Nat := 64
/-- KEYLENGTH (R6, conflict C4). -/
abbrev keyLength : Nat := 16
/-- PADPW_BYTES (R6). -/
abbrev padPwBytes : Nat := 32
/-- KDF_ITER (R6). -/
abbrev kdfIter : Nat := 50
/-- KDF_PASSES (R6, conflict C1). -/
abbrev kdfPasses : Nat := 20
/-- IV_BYTES (R6). -/
abbrev ivBytes : Nat := 16
/-- LCG_A (R6). -/
abbrev lcgA : Int := 52774
/-- LCG_B (R6). -/
abbrev lcgB : Int := 40692
/-- LCG_C (R6). -/
abbrev lcgC : Int := 3791
/-- LCG_M (R6). -/
abbrev lcgM : Int := 2147483399
/-- LCG_ROUNDS (R6). -/
abbrev lcgRounds : Nat := 4
/-- HDR_BYTES (R6). -/
abbrev hdrBytes : Nat := 16
/-- MAGIC5 (R6). -/
abbrev magic5 : Byte := 0x40
/-- MAGIC6 (R6). -/
abbrev magic6 : Byte := 0x20
/-- MAGIC7 (R6). -/
abbrev magic7 : Byte := 0x20
/-- PS_MIN (R6). -/
abbrev psMin : Nat := 512
/-- PS_MAX (R6). -/
abbrev psMax : Nat := 65536
/-- MAX_PG_LEN (R6, R136). -/
abbrev maxPgLen : Nat := 2 ^ 28 - 1
/-- MAX_SC_KLEN (R6). -/
abbrev maxScKlen : Nat := 256
/-- The least page-1 length on the decrypt path (R135). -/
abbrev minPage1Len : Nat := 24

end Config

/-- The direction of a block-cipher transaction (R117). -/
inductive Direction where
  | enc
  | dec
deriving DecidableEq, Repr

/-- The mode CORE asks of the block cipher: always CBC (R117). -/
inductive CipherMode where
  | cbc
deriving DecidableEq, Repr

/-- The key-length class CORE hands over: always the class for a 16-byte key (R117, R170). -/
inductive KeyLengthClass where
  | bytes16
deriving DecidableEq, Repr

/-- What CORE sends in its one transaction on the block-cipher port (R117). -/
structure PortRequest where
  mode : CipherMode
  direction : Direction
  key : Bytes
  keyLengthClass : KeyLengthClass
  iv : Bytes
  input : Bytes
  bitLength : Nat
deriving DecidableEq, Repr

/-- What the block cipher returns: `ret`, an s32 in two's complement, and as many bytes as it was given (R117). -/
structure PortAnswer where
  ret : Word
  output : Bytes
deriving DecidableEq, Repr

/-- One answer of the external block cipher that is known as data. -/
structure CipherRow where
  direction : Direction
  key : Bytes
  iv : Bytes
  input : Bytes
  ret : Word
  output : Bytes
deriving DecidableEq, Repr

/-- The answer of the external block cipher to a request that no `CipherRow` answers: a function of direction, key, iv
and data about which nothing is known but that it returns as many bytes as it is given (R117, R119). -/
opaque Config.bcFun (dir : Direction) (key iv data : Bytes) : Word × Vector Byte data.length

/-- The byte the scheme detection finds at an index past the end of the page. R127 gives no value there; with the
default and the alternative HDR_FIELD_BASE of R6 every index is inside the page. DESIGN CHOICE, log entry 7. -/
opaque Config.byteBeyondPage (page : Bytes) (index : Nat) : Byte

/-- The rows of R6 marked "argument". -/
structure Params where
  /-- BUF_SIZE: any natural number up to 2^32. -/
  bufSize : Nat
  /-- PAD (R106). -/
  pad : Vector Byte 32
  /-- SALT (R121). -/
  salt : Vector Byte 4
  /-- SIG (R131). -/
  sig : Vector Byte 16
  /-- HDR_FIELD_BASE (R127). -/
  hdrFieldBase : Nat
  /-- The answers of BCfun known as data (log entry 4). -/
  bcRows : List CipherRow
deriving DecidableEq, Repr

namespace Config

/-- The default of PAD (R106). -/
def defaultPad : Vector Byte 32 :=
  #v[0x28, 0xbf, 0x4e, 0x5e, 0x4e, 0x75, 0x8a, 0x41, 0x64, 0x00, 0x4e, 0x56, 0xff, 0xfa, 0x01, 0x08,
     0x2e, 0x2e, 0x00, 0xb6, 0xd0, 0x68, 0x3e, 0x80, 0x2f, 0x0c, 0xa9, 0xfe, 0x64, 0x53, 0x69, 0x7a]

/-- The default of SALT (R121). -/
def defaultSalt : Vector Byte 4 := #v[0x73, 0x41, 0x6c, 0x54]

/-- The default of SIG (R131). -/
def defaultSig : Vector Byte 16 :=
  #v[0x53, 0x51, 0x4c, 0x69, 0x74, 0x65, 0x20, 0x66, 0x6f, 0x72, 0x6d, 0x61, 0x74, 0x20, 0x33, 0x00]

/-- The parameters of `State.reset`: the defaults of R6, no cipher answer known as data, and BUF_SIZE = 0x4000, the
size every command-level vector of the spec uses (DESIGN CHOICE, log entry 2). -/
def defaultParams : Params where
  bufSize := 0x4000
  pad := defaultPad
  salt := defaultSalt
  sig := defaultSig
  hdrFieldBase := 16
  bcRows := []

end Config

end Sys2Proof
end

