-- ==== Sys2Proof/Machine/State.lean ====
section
/-! DEFINITION. The state of CORE as plain data (10_state.md R13 to R33), the reasons a step can stop, and the state after
reset. Beside the spec's own state it carries the model's arguments (R6) and the host's side of the interface. -/

namespace Sys2Proof.Machine

/-- The eight host registers by name (R14). -/
inductive RegName where
  | cmd
  | status
  | src
  | len
  | dst
  | key
  | klen
  | param
deriving DecidableEq, Repr

/-- The outcome codes of 60_exceptions.md R140. Values 7 to 15 are never produced, so they have no constructor. -/
inductive Code where
  | ok
  | cipherFail
  | hdrMismatch
  | badCmd
  | badSeq
  | badLen
  | badAddr
deriving DecidableEq, Repr

/-- The stored fields of STATUS (R16): CODE and STICKY. CTXV is a copy of CTX0.VALID and is stored there. -/
structure Status where
  code : Code
  sticky : Bool
deriving DecidableEq, Repr

/-- SRC, LEN, DST, KEY, KLEN and PARAM (R14, R17). -/
structure OperandRegs where
  src : Word
  len : Word
  dst : Word
  key : Word
  klen : Word
  param : Word
deriving DecidableEq, Repr

/-- The four words of running hash state, or the four working words a, b, c, d of one compression (R19, R72). -/
structure HashWords where
  h0 : Word
  h1 : Word
  h2 : Word
  h3 : Word
deriving DecidableEq, Repr

/-- A context value C = (H, BITS, PEND) (R19, R75). PEND is the sequence of the PN bytes absorbed and not yet
compressed. -/
structure DigestCtx where
  h : HashWords
  bits : DWord
  pend : Bytes
deriving DecidableEq, Repr

/-- CTX0, the host's digest context, with its VALID bit (R19). -/
structure Ctx0 where
  ctx : DigestCtx
  valid : Bool
deriving DecidableEq, Repr

/-- BUF: address and byte pairs, addresses strictly rising, no byte listed that equals what an unlisted address reads as
(`Memory.wf`). -/
abbrev Memory := List Host.Cell

/-- One access of the host to CORE: the lines of 30_encoding.md R58, the BUF accesses of 20_memory.md R34 and the reset
input of 70_reset_and_hazards.md R157. -/
inductive HostAccess where
  /-- `WR`: a whole 32-bit word is written at a byte offset of the register window. -/
  | writeReg (offset : Nat) (value : Word)
  /-- `RD`: a whole 32-bit word is read at a byte offset of the register window. -/
  | readReg (offset : Nat)
  /-- A byte, halfword or split access of the register window: the spec has no move for it (R165). -/
  | partialReg (offset : Nat) (bytes : Nat)
  /-- `BUF[addr..] = data`. -/
  | writeBuf (addr : Nat) (data : Bytes)
  /-- `BUF[addr..]` read, `count` bytes. -/
  | readBuf (addr : Nat) (count : Nat)
  /-- The reset input is applied (R157, R160). -/
  | reset
deriving DecidableEq, Repr

/-- What a host access brings back. -/
inductive HostResponse where
  | word (value : Word)
  | bytes (data : Bytes)
deriving DecidableEq, Repr

/-- The host's side of the interface (log entry 5): the accesses still to come, oldest first, and what the last access
brought back (`none` when it was no read). -/
structure HostPort where
  pending : List HostAccess
  response : Option HostResponse
deriving DecidableEq, Repr

/-- The state of the machine: the spec's state (R13) in the first four fields, the arguments of R6 in `params`, and the
host's side in `host`. -/
structure State where
  status : Status
  regs : OperandRegs
  ctx0 : Ctx0
  buf : Memory
  params : Params
  host : HostPort
deriving DecidableEq, Repr

/-- Why the machine stops. Both reasons are accesses of the HOST that the spec gives no effect; no command faults. -/
inductive Fault where
  /-- Raised by a register access that is not a whole 32-bit word at a multiple of 4 (R165: "a model has no move for
  it"). Safe. -/
  | registerAccessNotWholeWord
  /-- Raised by a host access to an address outside BUF (R24: addresses are 0 to BUF_SIZE - 1). Safe. -/
  | bufAddressDoesNotExist
deriving DecidableEq, Repr

/-- Why an instruction is given no meaning. -/
inductive Refusal where
  /-- Raised by an arm of `exec` whose instruction is not modelled yet. Safe. -/
  | notModelled (mnemonic : String)
deriving DecidableEq, Repr

/-- The outcome of one step of this machine. -/
abbrev Outcome := Host.Outcome State Fault Refusal

namespace State

/-- The state with STATUS's stored fields replaced. -/
def setStatus (s : State) (x : Status) : State := { s with status := x }
/-- The state with the operand registers replaced. -/
def setRegs (s : State) (x : OperandRegs) : State := { s with regs := x }
/-- The state with CTX0 replaced. -/
def setCtx0 (s : State) (x : Ctx0) : State := { s with ctx0 := x }
/-- The state with BUF replaced. -/
def setBuf (s : State) (x : Memory) : State := { s with buf := x }
/-- The state with the host's side replaced. -/
def setHost (s : State) (x : HostPort) : State := { s with host := x }

end State

/-- The operand registers after reset (R29). -/
def OperandRegs.zero : OperandRegs := ⟨0, 0, 0, 0, 0, 0⟩

/-- STATUS after reset (R29): CODE = OK, STICKY = 0. -/
def Status.atReset : Status := ⟨.ok, false⟩

/-- The wiped form of a digest context (R20): every word 0, BITS 0, PEND empty. -/
def DigestCtx.wiped : DigestCtx := ⟨⟨0, 0, 0, 0⟩, 0, []⟩

/-- CTX0 in its wiped form, which is also its reset form (R20, R30). -/
def Ctx0.wiped : Ctx0 := ⟨DigestCtx.wiped, false⟩

/-- The state after reset for any parameters and any BUF (R31, R158). -/
def State.resetWith (p : Params) (buf : Memory) : State where
  status := Status.atReset
  regs := OperandRegs.zero
  ctx0 := Ctx0.wiped
  buf := buf
  params := p
  host := ⟨[], none⟩

/-- The state after reset (R158) with the default parameters, nothing listed in BUF (DESIGN CHOICE, log entry 3) and no
host access pending. -/
def State.reset : State := State.resetWith Config.defaultParams []

end Sys2Proof.Machine
end

