-- ==== Sys2Proof/Syntax.lean ====
section
/-! DEFINITION. The commands of CORE (30_encoding.md R53): one constructor per row of spec/opcode_table.json. A command word
carries no operand (R51, R56), so no constructor has a field: operands are read from the operand registers. -/

namespace Sys2Proof

/-- The nine commands (R53). -/
inductive Instr where
  /-- MD_INIT, word 0x00000001. -/
  | mdInit
  /-- MD_UPDATE, word 0x00000002. -/
  | mdUpdate
  /-- MD_FINAL, word 0x00000003. -/
  | mdFinal
  /-- MD_ABORT, word 0x00000004. -/
  | mdAbort
  /-- SC_APPLY, word 0x00000010. -/
  | scApply
  /-- IV_GEN, word 0x00000020. -/
  | ivGen
  /-- KDF_DERIVE, word 0x00000030. -/
  | kdfDerive
  /-- PG_ENCRYPT, word 0x00000040. -/
  | pgEncrypt
  /-- PG_DECRYPT, word 0x00000041. -/
  | pgDecrypt
deriving DecidableEq, Repr

/-- The nine commands in the order of the opcode table. -/
def Instr.all : List Instr :=
  [.mdInit, .mdUpdate, .mdFinal, .mdAbort, .scApply, .ivGen, .kdfDerive, .pgEncrypt, .pgDecrypt]

end Sys2Proof
end

