-- ==== Sys2Proof/WellFormed.lean ====
section
/-! DEFINITION. What makes a command, a set of parameters and a host access well formed. A command has no operand field
(30_encoding.md R51, R56), so every command is; the checks are on the parameters and on what a host may ask. -/

namespace Sys2Proof

/-- Every command is well formed: it has no field that a value could be wrong in (R51, R56). -/
def Instr.wf : Instr → Bool
  | .mdInit | .mdUpdate | .mdFinal | .mdAbort | .scApply | .ivGen | .kdfDerive | .pgEncrypt | .pgDecrypt => true

/-- A row of known cipher answers is a possible answer of BCfun: 16-byte key and iv, as many bytes out as in (R117). -/
def CipherRow.wf (r : CipherRow) : Bool :=
  r.key.length == 16 && r.iv.length == 16 && r.output.length == r.input.length

/-- The parameters are ones R6 allows: BUF_SIZE at most 2^32, and the known cipher answers possible. -/
def Params.wf (p : Params) : Bool := p.bufSize ≤ 2 ^ 32 && p.bcRows.all CipherRow.wf

namespace Machine

/-- The host access is one the spec defines on a BUF of the given size: a whole word at a multiple of 4 (R165), BUF
bytes that exist (R24, R37). -/
def HostAccess.wf (bufSize : Nat) : HostAccess → Bool
  | .writeReg offset _ => offset % 4 == 0
  | .readReg offset => offset % 4 == 0
  | .partialReg _ _ => false
  | .writeBuf addr data => data.length == 0 || addr + data.length ≤ bufSize
  | .readBuf addr count => count == 0 || addr + count ≤ bufSize
  | .reset => true

end Machine

end Sys2Proof
end

