-- ==== Sys2Proof/Decode.lean ====
section
/-! DEFINITION. The decoder of command words, total on the 2^32 words and rejecting by name (30_encoding.md R52 to R54), and
the encoder written from the same table (R53). -/

namespace Sys2Proof

/-- Why a word names no command (R52): both are reported as BAD_CMD (R143). -/
inductive DecodeReject where
  /-- Bits 31:8 are not zero. -/
  | reservedFieldNotZero
  /-- The low byte is not one of the nine assigned opcodes. -/
  | opcodeNotAssigned
deriving DecidableEq, Repr

/-- The opcode map of R53. -/
def opcodeMap (opcode : Byte) : Option Instr :=
  match opcode.toNat with
  | 0x01 => some .mdInit
  | 0x02 => some .mdUpdate
  | 0x03 => some .mdFinal
  | 0x04 => some .mdAbort
  | 0x10 => some .scApply
  | 0x20 => some .ivGen
  | 0x30 => some .kdfDerive
  | 0x40 => some .pgEncrypt
  | 0x41 => some .pgDecrypt
  | _ => none

/-- Bits 31:8 of a command word (R51). -/
def rsvField (w : Word) : BitVec 24 := w.extractLsb' 8 24

/-- Bits 7:0 of a command word (R51). -/
def opcodeField (w : Word) : Byte := w.extractLsb' 0 8

/-- The decoder of R52: it depends on nothing but the word. -/
def decode (w : Word) : Except DecodeReject Instr :=
  if rsvField w ≠ 0 then .error .reservedFieldNotZero
  else
    match opcodeMap (opcodeField w) with
    | some i => .ok i
    | none => .error .opcodeNotAssigned

/-- The word of a command (R53, column "full word"). -/
def encode : Instr → Word
  | .mdInit => 0x00000001
  | .mdUpdate => 0x00000002
  | .mdFinal => 0x00000003
  | .mdAbort => 0x00000004
  | .scApply => 0x00000010
  | .ivGen => 0x00000020
  | .kdfDerive => 0x00000030
  | .pgEncrypt => 0x00000040
  | .pgDecrypt => 0x00000041

/-- The command the decoder reads from a word numbered as spec/opcode_table.json numbers it: bit 0 the least significant
bit, all bits from `nbits` on zero. A command is one 32-bit word (R57). -/
def decodeTableWord (nbits w : Nat) : Option Instr :=
  if nbits ≤ 32 ∧ w < 2 ^ nbits then (decode (BitVec.ofNat 32 w)).toOption else none

end Sys2Proof
end

