-- ==== Sys2Proof/Machine/Flags.lean ====
section
/-! DEFINITION. The flags of CORE: STATUS.CODE, STATUS.CTXV and STATUS.STICKY (10_state.md R16, R23; 60_exceptions.md R140,
R142). No computation keeps a carry, zero, sign or overflow flag (R23). -/

namespace Sys2Proof.Machine

/-- The value a code has in STATUS[3:0] (R140). -/
def Code.toBits : Code → BitVec 4
  | .ok => 0
  | .cipherFail => 1
  | .hdrMismatch => 2
  | .badCmd => 3
  | .badSeq => 4
  | .badLen => 5
  | .badAddr => 6

/-- The two-valued status of the source's contract (R142): ok = OK or HDR_MISMATCH. -/
def Code.isOk : Code → Bool
  | .ok | .hdrMismatch => true
  | .cipherFail | .badCmd | .badSeq | .badLen | .badAddr => false

/-- The four refusal codes, the ones `raise` ends a command with (R140, R141). -/
def Code.isRefusal : Code → Bool
  | .badCmd | .badSeq | .badLen | .badAddr => true
  | .ok | .cipherFail | .hdrMismatch => false

/-- STATUS after a command that ended with a code (R16): CODE is the code, and STICKY is set by every code other than
OK and never cleared by a command. -/
def Status.after (x : Status) (c : Code) : Status := ⟨c, x.sticky || c != .ok⟩

/-- STATUS after the host wrote a word to it (R16): bit 9 of the written word, when 1, clears STICKY; nothing else
changes. -/
def Status.written (x : Status) (w : Word) : Status := { x with sticky := x.sticky && !w.getLsbD 9 }

/-- A flag as bit `k` of a word. -/
def flagBit (k : Nat) (b : Bool) : Word := if b then 1#32 <<< k else 0#32

/-- The STATUS word the host reads (R16): CODE in bits 3:0, CTXV, the copy of CTX0.VALID, in bit 8, STICKY in bit 9,
every other bit 0. -/
def statusWord (s : State) : Word :=
  s.status.code.toBits.setWidth 32 ||| flagBit 8 s.ctx0.valid ||| flagBit 9 s.status.sticky

end Sys2Proof.Machine
end

