-- ==== Sys2Proof/Machine/Ops.lean ====
section
/-! DEFINITION. The operations every command and the host interface share: BUF and its accesses (20_memory.md R34 to R37),
the byte orders (00_scope.md R8, 20_memory.md R38), the register window (10_state.md R14 to R18), how a command ends
(60_exceptions.md R141, R142), the external block cipher's answer (45_page.md R117) and reset (70_reset_and_hazards.md
R157 to R160). -/

namespace Sys2Proof.Machine

/-! ### BUF -/

/-- What a byte of BUF that is not listed reads as. The spec leaves BUF after reset unspecified (R31): DESIGN CHOICE,
unsafe, log entry 3. -/
def Memory.unlisted : Byte := 0

/-- One byte of BUF. -/
def Memory.read : Memory → Nat → Byte
  | [], _ => Memory.unlisted
  | (k, v) :: m, a => if a = k then v else Memory.read m a

/-- One byte of BUF written, keeping the canonical form. -/
def Memory.write : Memory → Nat → Byte → Memory
  | [], a, b => if b = Memory.unlisted then [] else [(a, b)]
  | (k, v) :: m, a, b =>
    if a < k then (if b = Memory.unlisted then (k, v) :: m else (a, b) :: (k, v) :: m)
    else if a = k then (if b = Memory.unlisted then m else (a, b) :: m)
    else (k, v) :: Memory.write m a b

/-- Every listed address is at least `lo`, addresses rise strictly, and no listed byte equals an unlisted one. -/
def Memory.wfFrom : Nat → Memory → Bool
  | _, [] => true
  | lo, (k, v) :: m => lo ≤ k && v != Memory.unlisted && Memory.wfFrom (k + 1) m

/-- The canonical form of BUF. -/
def Memory.wf (m : Memory) : Bool := Memory.wfFrom 0 m

/-- `MemRead(addr, n)`: the bytes at addr, addr + 1, .., lowest address first (R35). -/
def Memory.readBytes (m : Memory) (addr n : Nat) : Bytes := (List.range n).map fun i => m.read (addr + i)

/-- `MemWrite(addr, n, v)` with n the length of v (R36). -/
def Memory.writeBytes : Memory → Nat → Bytes → Memory
  | m, _, [] => m
  | m, addr, b :: bs => Memory.writeBytes (m.write addr b) (addr + 1) bs

/-- A range is valid when it is empty or ends inside BUF, the sum taken over the integers (R37). -/
def rangeValid (p : Params) (addr n : Nat) : Bool := n == 0 || addr + n ≤ p.bufSize

/-- Two ranges of equal length share no byte. -/
def rangesDisjoint (a b n : Nat) : Bool := a + n ≤ b || b + n ≤ a

/-- `MemRead` on the state. -/
def memRead (s : State) (addr n : Nat) : Bytes := s.buf.readBytes addr n

/-- `MemWrite` on the state. -/
def memWrite (s : State) (addr : Nat) (v : Bytes) : State := s.setBuf (s.buf.writeBytes addr v)

/-! ### Byte orders and integers -/

/-- `le32(w)` (R8). -/
def le32 (w : Word) : Bytes := [w.extractLsb' 0 8, w.extractLsb' 8 8, w.extractLsb' 16 8, w.extractLsb' 24 8]

/-- `le64(w)` (R8). -/
def le64 (w : DWord) : Bytes := (List.range 8).map fun k => w.extractLsb' (8 * k) 8

/-- `from_le32(b)` (R8). -/
def fromLe32 (b : Bytes) : Word :=
  BitVec.ofNat 32 ((b.getD 0 0).toNat + 256 * (b.getD 1 0).toNat + 65536 * (b.getD 2 0).toNat
    + 16777216 * (b.getD 3 0).toNat)

/-- `wrap_s32(n)` (R7): the s32 reading of n mod 2^32. -/
def wrapS32 (n : Int) : Int := (BitVec.ofInt 32 n).toInt

/-- `as_u32(z)` (R7). -/
def asU32 (z : Int) : Word := BitVec.ofInt 32 z

/-! ### How a command ends -/

/-- `finish <Code>` (R10, R142): STATUS gets the code, after the state changes of the command. -/
def finish (c : Code) (s : State) : State := s.setStatus (s.status.after c)

/-- `raise <Code>` (R141): the command ends at once; STATUS.CODE and STICKY change and nothing else. This is what CORE
has in the place of taking an exception (R152): no pc is saved, no mode changes, there is no handler to go to and no
return from it. -/
def raise (c : Code) (s : State) : Outcome := .next (finish c s)

/-- The code of the first check that fails, in the order the checks are listed (R149). -/
def firstFailure : List (Bool × Code) → Option Code
  | [] => none
  | (holds, c) :: rest => if holds then firstFailure rest else some c

/-- How every command runs: all its checks come first, and the first that fails ends it by `raise`; when all hold its
effect takes place (R37, R141, R149). -/
def runCommand (checks : List (Bool × Code)) (effect : State → State) (s : State) : Outcome :=
  match firstFailure checks with
  | some c => raise c s
  | none => .next (effect s)

/-! ### The external block cipher -/

/-- The row answers this request. A row that does not return as many bytes as it is given is no answer of BCfun. -/
def rowAnswers (r : CipherRow) (dir : Direction) (key iv data : Bytes) : Bool :=
  r.direction == dir && r.key == key && r.iv == iv && r.input == data && r.output.length == data.length

/-- `BCfun(dir, key, iv, data)` (R117): the known answer where there is one, else the opaque one. -/
def blockCipher (p : Params) (dir : Direction) (key iv data : Bytes) : PortAnswer :=
  match p.bcRows.find? (rowAnswers · dir key iv data) with
  | some r => ⟨r.ret, r.output⟩
  | none => ⟨(Config.bcFun dir key iv data).1, (Config.bcFun dir key iv data).2.toList⟩

/-- The one transaction on the port: the answer depends on the request's direction, key, iv and input only (R117). -/
def transact (p : Params) (r : PortRequest) : PortAnswer := blockCipher p r.direction r.key r.iv r.input

/-- `ret < 0`, the only failure signal (R118). -/
def cipherFailed (a : PortAnswer) : Bool := a.ret.toInt < 0

/-! ### The register window -/

/-- The byte offset of a register (R14). -/
def RegName.offset : RegName → Nat
  | .cmd => 0x00
  | .status => 0x04
  | .src => 0x08
  | .len => 0x0C
  | .dst => 0x10
  | .key => 0x14
  | .klen => 0x18
  | .param => 0x1C

/-- The register at a byte offset; none at the reserved offsets (R14, R18). -/
def RegName.ofOffset (offset : Nat) : Option RegName :=
  match offset with
  | 0x00 => some .cmd
  | 0x04 => some .status
  | 0x08 => some .src
  | 0x0C => some .len
  | 0x10 => some .dst
  | 0x14 => some .key
  | 0x18 => some .klen
  | 0x1C => some .param
  | _ => none

/-- What a read of a register answers: CMD reads as 0 (R15), STATUS as its word (R16), an operand register as the last
value written (R17). -/
def readReg (s : State) : RegName → Word
  | .cmd => 0
  | .status => statusWord s
  | .src => s.regs.src
  | .len => s.regs.len
  | .dst => s.regs.dst
  | .key => s.regs.key
  | .klen => s.regs.klen
  | .param => s.regs.param

/-- What a read at a byte offset answers: the register, or 0 at a reserved offset (R18). -/
def readOffset (s : State) (offset : Nat) : Word :=
  match RegName.ofOffset offset with
  | some r => readReg s r
  | none => 0

/-- An operand register written (R17); CMD and STATUS are no operand registers and are left as they are. -/
def OperandRegs.write (x : OperandRegs) (r : RegName) (v : Word) : OperandRegs :=
  match r with
  | .cmd | .status => x
  | .src => { x with src := v }
  | .len => { x with len := v }
  | .dst => { x with dst := v }
  | .key => { x with key := v }
  | .klen => { x with klen := v }
  | .param => { x with param := v }

/-! ### Reset -/

/-- The reset input applied between commands (R157, R158, R160): every register 0, CTX0 wiped, BUF unchanged; the
parameters are no state and the host's side is outside CORE. -/
def resetMove (s : State) : State :=
  (((s.setStatus Status.atReset).setRegs OperandRegs.zero).setCtx0 Ctx0.wiped)

end Sys2Proof.Machine
end

