-- ==== Sys2Proof/Machine/Operands.lean ====
section
/-! DEFINITION. The operand forms (30_encoding.md R55, R56): each operand is the full 32-bit value of its register at the
moment CMD is written. Addresses and lengths are unsigned; PARAM is a bit pattern with two readings. -/

namespace Sys2Proof.Machine

/-- SRC as a BUF address (R17). -/
def srcAddr (s : State) : Nat := s.regs.src.toNat

/-- LEN as a byte count (R17). -/
def lenCount (s : State) : Nat := s.regs.len.toNat

/-- DST as a BUF address (R17). -/
def dstAddr (s : State) : Nat := s.regs.dst.toNat

/-- KEY as a BUF address (R17). -/
def keyAddr (s : State) : Nat := s.regs.key.toNat

/-- KLEN as a byte count (R17). -/
def klenCount (s : State) : Nat := s.regs.klen.toNat

/-- PARAM as an IV seed: `as_s32(PARAM)` (R56, R101). -/
def seedOperand (s : State) : Int := s.regs.param.toInt

/-- PARAM as a page number, the 32-bit pattern (R122). -/
def pageOperand (s : State) : Word := s.regs.param

/-- How many bytes of a password are read and range-checked: min(LEN, 32) (R111). -/
def passwordCount (s : State) : Nat := min (lenCount s) Config.padPwBytes

/-- The source operand of MD_UPDATE, SC_APPLY and the page commands: `MemRead(SRC, LEN)`. -/
def sourceBytes (s : State) : Bytes := memRead s (srcAddr s) (lenCount s)

/-- The stream-cipher key: `MemRead(KEY, KLEN)`. -/
def streamKeyBytes (s : State) : Bytes := memRead s (keyAddr s) (klenCount s)

/-- The base key of the page commands: `MemRead(KEY, 16)`. -/
def baseKeyBytes (s : State) : Bytes := memRead s (keyAddr s) Config.keyLength

/-- The password of KDF_DERIVE: `MemRead(SRC, min(LEN, 32))`. -/
def passwordBytes (s : State) : Bytes := memRead s (srcAddr s) (passwordCount s)

/-- (SRC, LEN) is valid (R37). -/
def sourceValid (s : State) : Bool := rangeValid s.params (srcAddr s) (lenCount s)

/-- (DST, n) is valid (R37). -/
def destValid (s : State) (n : Nat) : Bool := rangeValid s.params (dstAddr s) n

/-- (KEY, n) is valid (R37). -/
def keyValid (s : State) (n : Nat) : Bool := rangeValid s.params (keyAddr s) n

/-- The overlap rule of SC_APPLY (R44 a): nothing to overlap, or in place, or separate buffers. -/
def overlapAllowed (s : State) : Bool :=
  lenCount s == 0 || srcAddr s == dstAddr s || rangesDisjoint (srcAddr s) (dstAddr s) (lenCount s)

end Sys2Proof.Machine
end

