-- ==== Sys2Proof/Machine/Digest.lean ====
section
/-! DEFINITION. The digest engine (41_digest.md): the compression function, the context operations, the function MD, and
the commands MD_INIT, MD_UPDATE, MD_FINAL and MD_ABORT. -/

namespace Sys2Proof.Machine

/-! ### Constants (R66 to R69) -/

/-- MD_INIT_WORDS (R66). -/
def mdInitWords : HashWords := ⟨0x67452301, 0xefcdab89, 0x98badcfe, 0x10325476⟩

/-- T[0..15] (R67). -/
def mdT0 : List Word :=
  [0xd76aa478, 0xe8c7b756, 0x242070db, 0xc1bdceee, 0xf57c0faf, 0x4787c62a, 0xa8304613, 0xfd469501,
   0x698098d8, 0x8b44f7af, 0xffff5bb1, 0x895cd7be, 0x6b901122, 0xfd987193, 0xa679438e, 0x49b40821]

/-- T[16..31] (R67). -/
def mdT1 : List Word :=
  [0xf61e2562, 0xc040b340, 0x265e5a51, 0xe9b6c7aa, 0xd62f105d, 0x02441453, 0xd8a1e681, 0xe7d3fbc8,
   0x21e1cde6, 0xc33707d6, 0xf4d50d87, 0x455a14ed, 0xa9e3e905, 0xfcefa3f8, 0x676f02d9, 0x8d2a4c8a]

/-- T[32..47] (R67). -/
def mdT2 : List Word :=
  [0xfffa3942, 0x8771f681, 0x6d9d6122, 0xfde5380c, 0xa4beea44, 0x4bdecfa9, 0xf6bb4b60, 0xbebfbc70,
   0x289b7ec6, 0xeaa127fa, 0xd4ef3085, 0x04881d05, 0xd9d4d039, 0xe6db99e5, 0x1fa27cf8, 0xc4ac5665]

/-- T[48..63] (R67). -/
def mdT3 : List Word :=
  [0xf4292244, 0x432aff97, 0xab9423a7, 0xfc93a039, 0x655b59c3, 0x8f0ccc92, 0xffeff47d, 0x85845dd1,
   0x6fa87e4f, 0xfe2ce6e0, 0xa3014314, 0x4e0811a1, 0xf7537e82, 0xbd3af235, 0x2ad7d2bb, 0xeb86d391]

/-- The additive constants MD_T (R67). -/
def mdT : List Word := mdT0 ++ mdT1 ++ mdT2 ++ mdT3

/-- ROT of R68. -/
def mdRot : List (List Nat) := [[7, 12, 17, 22], [5, 9, 14, 20], [4, 11, 16, 23], [6, 10, 15, 21]]

/-- S[i], the rotation amount of step i (R68). -/
def mdS (i : Nat) : Nat := (mdRot.getD (i / 16) []).getD (i % 4) 0

/-- G[i], the index of the block word step i uses (R69). -/
def mdG (i : Nat) : Nat :=
  match i / 16 with
  | 0 => i % 16
  | 1 => (5 * (i % 16) + 1) % 16
  | 2 => (3 * (i % 16) + 5) % 16
  | _ => 7 * (i % 16) % 16

/-! ### The compression function (R70 to R73) -/

/-- The round functions F0, F1, F2, F3 (R70). -/
def roundFn (r : Nat) (x y z : Word) : Word :=
  match r with
  | 0 => (x &&& y) ||| (~~~x &&& z)
  | 1 => (x &&& z) ||| (y &&& ~~~z)
  | 2 => x ^^^ y ^^^ z
  | _ => y ^^^ (x ||| ~~~z)

/-- X[0..15], the little-endian words of a block (R71). -/
def blockWords (blk : Bytes) : List Word := (List.range 16).map fun k => fromLe32 ((blk.drop (4 * k)).take 4)

/-- Step i on the working words (a, b, c, d) = (h0, h1, h2, h3) (R72). -/
def mdStep (x : List Word) (v : HashWords) (i : Nat) : HashWords :=
  let t := v.h0 + roundFn (i / 16) v.h1 v.h2 v.h3 + x.getD (mdG i) 0 + mdT.getD i 0
  ⟨v.h3, v.h1 + t.rotateLeft (mdS i), v.h1, v.h2⟩

/-- Word-wise addition modulo 2^32 (R73). -/
def HashWords.add (u v : HashWords) : HashWords := ⟨u.h0 + v.h0, u.h1 + v.h1, u.h2 + v.h2, u.h3 + v.h3⟩

/-- The working words after the first n steps (R73). -/
def mdSteps (x : List Word) (h : HashWords) (n : Nat) : HashWords := (List.range n).foldl (mdStep x) h

/-- `COMPRESS(H, blk)` (R73). -/
def compress (h : HashWords) (blk : Bytes) : HashWords := h.add (mdSteps (blockWords blk) h 64)

/-! ### Context operations and MD (R74 to R76) -/

/-- `CTX_NEW()` (R75). -/
def ctxNew : DigestCtx := ⟨mdInitWords, 0, []⟩

/-- One byte absorbed (R75). -/
def absorbByte (c : DigestCtx) (x : Byte) : DigestCtx :=
  let pend := c.pend ++ [x]
  if pend.length = Config.blockBytes then ⟨compress c.h pend, c.bits + 8, []⟩ else ⟨c.h, c.bits + 8, pend⟩

/-- `CTX_ABSORB(C, data)` (R75). -/
def ctxAbsorb (c : DigestCtx) (data : Bytes) : DigestCtx := data.foldl absorbByte c

/-- Z = (55 - PN) mod 64 (R74). -/
def padZeros (pn : Nat) : Nat := (((55 : Int) - pn) % 64).toNat

/-- TAIL (R74). -/
def ctxTail (c : DigestCtx) : Bytes := c.pend ++ [0x80] ++ zeros (padZeros c.pend.length) ++ le64 c.bits

/-- The four words as 16 bytes, little-endian per word, H[0] first (R75). -/
def digestBytes (h : HashWords) : Bytes := le32 h.h0 ++ le32 h.h1 ++ le32 h.h2 ++ le32 h.h3

/-- `CTX_FINISH(C)` (R75): one block of the tail, and a second one when the tail has 128 bytes. -/
def ctxFinish (c : DigestCtx) : Bytes :=
  let tail := ctxTail c
  let h := compress c.h (tail.take 64)
  digestBytes (if tail.length = 128 then compress h ((tail.drop 64).take 64) else h)

/-- `MD(m)` (R75). -/
def md (m : Bytes) : Bytes := ctxFinish (ctxAbsorb ctxNew m)

/-! ### The commands -/

/-- The effect of MD_INIT: CTX0 is a fresh, open context (R77). -/
def mdInitEffect (s : State) : State := finish .ok (s.setCtx0 ⟨ctxNew, true⟩)

/-- MD_INIT (R77): no check beyond decoding. -/
def execMdInit (s : State) : Outcome := runCommand [] mdInitEffect s

/-- The effect of MD_UPDATE: the bytes at SRC are absorbed (R78). -/
def mdUpdateEffect (s : State) : State :=
  finish .ok (s.setCtx0 { s.ctx0 with ctx := ctxAbsorb s.ctx0.ctx (sourceBytes s) })

/-- MD_UPDATE (R78): an open context, then a valid source range. -/
def execMdUpdate (s : State) : Outcome :=
  runCommand [(s.ctx0.valid, .badSeq), (sourceValid s, .badAddr)] mdUpdateEffect s

/-- The effect of MD_FINAL: the digest is written at DST and CTX0 is wiped (R79). -/
def mdFinalEffect (s : State) : State :=
  finish .ok ((memWrite s (dstAddr s) (ctxFinish s.ctx0.ctx)).setCtx0 Ctx0.wiped)

/-- MD_FINAL (R79): an open context, then a valid destination range. -/
def execMdFinal (s : State) : Outcome :=
  runCommand [(s.ctx0.valid, .badSeq), (destValid s Config.digestBytes, .badAddr)] mdFinalEffect s

/-- The effect of MD_ABORT: CTX0 is wiped (R80). -/
def mdAbortEffect (s : State) : State := finish .ok (s.setCtx0 Ctx0.wiped)

/-- MD_ABORT (R80): no check beyond decoding. -/
def execMdAbort (s : State) : Outcome := runCommand [] mdAbortEffect s

end Sys2Proof.Machine
end

