-- ==== Sys2Proof/Machine/IvGen.lean ====
section
/-! DEFINITION. The deterministic IV generator (43_ivgen.md): the recurrence, the function IVGEN and the command IV_GEN. -/

namespace Sys2Proof.Machine

/-- q of R98, the quotient rounded toward zero. -/
def lcgQuot (z : Int) : Int := Int.tdiv z Config.lcgA

/-- r of R98, the remainder with the sign of z. -/
def lcgRem (z : Int) : Int := z - Config.lcgA * lcgQuot z

/-- `40692 * r - 3791 * q` before it is wrapped (R98). -/
def lcgRaw (z : Int) : Int := Config.lcgB * lcgRem z - Config.lcgC * lcgQuot z

/-- One round of the recurrence (R98). -/
def lcgStep (z : Int) : Int :=
  let v := wrapS32 (lcgRaw z)
  if v < 0 then wrapS32 (v + Config.lcgM) else v

/-- The initial state `wrap_s32(seed + 1)` (R97). -/
def lcgInit (seed : Int) : Int := wrapS32 (seed + 1)

/-- The bytes emitted in n rounds from state z, four per round, after the round (R99). -/
def lcgEmit : Nat → Int → Bytes
  | 0, _ => []
  | n + 1, z => le32 (asU32 (lcgStep z)) ++ lcgEmit n (lcgStep z)

/-- The 16-byte scratch key SK (R99). -/
def scratchKey (seed : Int) : Bytes := lcgEmit Config.lcgRounds (lcgInit seed)

/-- `IVGEN(seed)` (R100). -/
def ivgen (seed : Int) : Bytes := md (scratchKey seed)

/-- The effect of IV_GEN: the IV of `as_s32(PARAM)` is written at DST (R101). -/
def ivGenEffect (s : State) : State := finish .ok (memWrite s (dstAddr s) (ivgen (seedOperand s)))

/-- IV_GEN (R101): a valid destination range. -/
def execIvGen (s : State) : Outcome := runCommand [(destValid s Config.ivBytes, .badAddr)] ivGenEffect s

end Sys2Proof.Machine
end

