-- ==== Sys2Proof/Machine/Stream.lean ====
section
/-! DEFINITION. The stream cipher engine (42_stream.md): the key schedule, the keystream, the function SC and the command
SC_APPLY. The permutation table and its indices are scratch of one pass (R87, R93). -/

namespace Sys2Proof.Machine

/-- The permutation table P[0..255] (R87). -/
abbrev Perm := List Byte

/-- P[i]. -/
def Perm.at (p : Perm) (i : Byte) : Byte := p.getD i.toNat 0

/-- P[i] and P[j] swapped. -/
def Perm.swap (p : Perm) (i j : Byte) : Perm := (p.set i.toNat (p.at j)).set j.toNat (p.at i)

/-- P[i] = i for i = 0..255 (R88). -/
def Perm.identity : Perm := (List.range 256).map (BitVec.ofNat 8)

/-- The state of the key schedule: P and the index j (R87). -/
structure KsaState where
  p : Perm
  j : Byte
deriving DecidableEq, Repr

/-- Step i of the key schedule: `j = (j + P[i] + key[i mod n]) mod 256`, then P[i] and P[j] are swapped (R88). -/
def ksaStep (key : Bytes) (k : KsaState) (i : Nat) : KsaState :=
  let j := k.j + k.p.at (BitVec.ofNat 8 i) + key.getD (i % key.length) 0
  ⟨k.p.swap (BitVec.ofNat 8 i) j, j⟩

/-- The key schedule after its first n steps (R88). -/
def ksaSteps (key : Bytes) (n : Nat) : KsaState := (List.range n).foldl (ksaStep key) ⟨Perm.identity, 0⟩

/-- `KSA(key)` (R88). -/
def ksa (key : Bytes) : Perm := (ksaSteps key 256).p

/-- The state of the keystream: P and the indices a and b (R87). -/
structure PrgaState where
  p : Perm
  a : Byte
  b : Byte
deriving DecidableEq, Repr

/-- The indices advanced and the entries swapped, once per byte (R89). -/
def prgaStep (g : PrgaState) : PrgaState :=
  let a := g.a + 1
  let b := g.b + g.p.at a
  ⟨g.p.swap a b, a, b⟩

/-- The keystream byte, looked up after the swap: P[P[a] + P[b]] (R89). -/
def prgaByte (g : PrgaState) : Byte := g.p.at (g.p.at g.a + g.p.at g.b)

/-- The masking of R89 from a keystream state. -/
def prgaFrom : PrgaState → Bytes → Bytes
  | _, [] => []
  | g, x :: xs =>
    let g' := prgaStep g
    (x ^^^ prgaByte g') :: prgaFrom g' xs

/-- `PRGA(P, data)` (R89): both indices start at 0. -/
def prga (p : Perm) (data : Bytes) : Bytes := prgaFrom ⟨p, 0, 0⟩ data

/-- `SC(key, data)` (R90). -/
def sc (key data : Bytes) : Bytes := prga (ksa key) data

/-- The effect of SC_APPLY: the masked input is written at DST (R92). -/
def scApplyEffect (s : State) : State :=
  finish .ok (memWrite s (dstAddr s) (sc (streamKeyBytes s) (sourceBytes s)))

/-- SC_APPLY (R92): a key length of 1 to 256, then the three ranges valid, then no partial overlap. -/
def execScApply (s : State) : Outcome :=
  runCommand
    [(1 ≤ klenCount s && klenCount s ≤ Config.maxScKlen, .badLen),
     (keyValid s (klenCount s) && sourceValid s && destValid s (lenCount s), .badAddr),
     (overlapAllowed s, .badAddr)]
    scApplyEffect s

end Sys2Proof.Machine
end

