-- ==== Sys2Proof/Machine/Kdf.lean ====
section
/-! DEFINITION. Password-based key derivation (44_kdf.md): padding, owner-verification digest, owner key, session digest,
the function KDF and the command KDF_DERIVE. -/

namespace Sys2Proof.Machine

/-- PAD as a byte sequence (R106). -/
def padBytes (p : Params) : Bytes := p.pad.toList

/-- `PADPW(pw)` (R107): the first min(L, 32) bytes, filled up with the first bytes of PAD. -/
def padPw (p : Params) (pw : Bytes) : Bytes :=
  pw.take Config.padPwBytes ++ (padBytes p).take (Config.padPwBytes - pw.length)

/-- n times "digest of the first KEYLENGTH bytes of the previous digest" (R108, R110). -/
def iterateMd : Nat → Bytes → Bytes
  | 0, d => d
  | n + 1, d => iterateMd n (md (d.take Config.keyLength))

/-- OV, the owner-verification digest: the owner password is always empty (R108, R114). -/
def ownerVerification (p : Params) : Bytes := iterateMd Config.kdfIter (md (padPw p []))

/-- MK of pass i: every byte of OV XORed with i (R109). -/
def maskingKey (ov : Bytes) (i : Nat) : Bytes := ov.map (· ^^^ BitVec.ofNat 8 i)

/-- The owner key after the first n passes (R109). -/
def ownerKeyPasses (ov up : Bytes) (n : Nat) : Bytes :=
  (List.range n).foldl (fun ok i => sc (maskingKey ov i) ok) up

/-- The owner key after the twenty passes i = 0..19 (R109). -/
def ownerKey (p : Params) (up : Bytes) : Bytes := ownerKeyPasses (ownerVerification p) up Config.kdfPasses

/-- `KDF(pw)` (R110). -/
def kdf (p : Params) (pw : Bytes) : Bytes :=
  let up := padPw p pw
  (iterateMd Config.kdfIter (md (up ++ ownerKey p up))).take Config.keyLength

/-- The effect of KDF_DERIVE: the base key of the password is written at DST (R111). -/
def kdfDeriveEffect (s : State) : State := finish .ok (memWrite s (dstAddr s) (kdf s.params (passwordBytes s)))

/-- KDF_DERIVE (R111): a valid range for the min(LEN, 32) password bytes that are read, then a valid destination. -/
def execKdfDerive (s : State) : Outcome :=
  runCommand
    [(rangeValid s.params (srcAddr s) (passwordCount s), .badAddr), (destValid s Config.keyLength, .badAddr)]
    kdfDeriveEffect s

end Sys2Proof.Machine
end

