-- ==== Sys2Proof/Machine/Page.lean ====
section
/-! DEFINITION. The page cipher orchestrator (45_page.md): page key and page IV, the transaction on the block-cipher port,
the page-1 header logic of the decrypt path, and the commands PG_ENCRYPT and PG_DECRYPT. -/

namespace Sys2Proof.Machine

/-! ### Derive-key (R120 to R124) -/

/-- The key-material record (R120). -/
structure KeyMaterial where
  base : Bytes
  page : Bytes
  salt : Bytes
deriving DecidableEq, Repr

/-- KM of a base key and a page number (R120). -/
def keyMaterial (p : Params) (base : Bytes) (page : Word) : KeyMaterial := ⟨base, le32 page, p.salt.toList⟩

/-- The serialisation of KM: base, page number, salt (R120). -/
def KeyMaterial.bytes (km : KeyMaterial) : Bytes := km.base ++ km.page ++ km.salt

/-- `PAGEKEY(base, page)` (R123). -/
def pageKey (p : Params) (base : Bytes) (page : Word) : Bytes :=
  (md (keyMaterial p base page).bytes).take Config.keyLength

/-- `PAGEIV(page)` (R124). -/
def pageIv (page : Word) : Bytes := ivgen page.toInt

/-! ### Transform (R117, R125) -/

/-- The transaction CORE makes for one page command (R117): CBC, the page key and its class, the page IV, the data, and
its length in bits. -/
def pageRequest (p : Params) (dir : Direction) (base : Bytes) (page : Word) (data : Bytes) : PortRequest where
  mode := .cbc
  direction := dir
  key := pageKey p base page
  keyLengthClass := .bytes16
  iv := pageIv page
  input := data
  bitLength := 8 * data.length

/-- `XFORM(dir, base, page, data)` (R125). -/
def xform (p : Params) (dir : Direction) (base : Bytes) (page : Word) (data : Bytes) : PortAnswer :=
  transact p (pageRequest p dir base page data)

/-! ### Detect-header (R126 to R129) -/

/-- `saved = pg[16..23]` (R126). -/
def savedHeader (pg : Bytes) : Bytes := (pg.drop 16).take 8

/-- Byte k of the page as the scheme detection sees it; past the end of the page, which no named HDR_FIELD_BASE reaches,
a free value (log entry 7). -/
def headerByte (pg : Bytes) (k : Nat) : Byte := (pg[k]?).getD (Config.byteBeyondPage pg k)

/-- `h = pg[HDR_FIELD_BASE .. HDR_FIELD_BASE + 7]` (R127). -/
def headerField (p : Params) (pg : Bytes) : Bytes := (List.range 8).map fun i => headerByte pg (p.hdrFieldBase + i)

/-- `ps = (h[0] << 8) | (h[1] << 16)` (R127). -/
def pageSizeField (h : Bytes) : Nat := ((h.getD 0 0).toNat <<< 8) ||| ((h.getD 1 0).toNat <<< 16)

/-- The condition on ps: in range and a power of two (R127). -/
def pageSizeAccepted (ps : Nat) : Bool := Config.psMin ≤ ps && ps ≤ Config.psMax && ps &&& (ps - 1) == 0

/-- `NEWSCHEME(h)` (R127). -/
def newScheme (h : Bytes) : Bool :=
  pageSizeAccepted (pageSizeField h) && h.getD 5 0 == Config.magic5 && h.getD 6 0 == Config.magic6
    && h.getD 7 0 == Config.magic7

/-- `pg[16..23] <- pg[8..15]` (R129). -/
def relocate (pg : Bytes) : Bytes := pg.take 16 ++ (pg.drop 8).take 8 ++ pg.drop 24

/-- Whether a page takes the new-scheme path: the header logic runs for page number 1 only (R126). -/
def takesNewScheme (p : Params) (page : Word) (pg : Bytes) : Bool := page == 1 && newScheme (headerField p pg)

/-- What Detect-header hands on: the page as it goes to the transform, and the offset the transform starts from. -/
structure Detected where
  page : Bytes
  off : Nat
  isNew : Bool
deriving DecidableEq, Repr

/-- Detect-header (R129): relocated with offset 16, or as it is with offset 0. -/
def detectHeader (p : Params) (page : Word) (pg : Bytes) : Detected :=
  if takesNewScheme p page pg then ⟨relocate pg, Config.hdrBytes, true⟩ else ⟨pg, 0, false⟩

/-! ### Verify/Restore-header (R132) -/

/-- Verify and restore: the saved bytes are compared with the decrypted ones; on a match bytes 0..15 become SIG, else
nothing more is written and the outcome is HDR_MISMATCH. -/
def verifyRestore (p : Params) (saved pg : Bytes) : Code × Bytes :=
  if savedHeader pg = saved then (.ok, p.sig.toList ++ pg.drop 16) else (.hdrMismatch, pg)

/-- The page and the outcome code after the phases of PG_DECRYPT (R133, R135-code): the page number's header logic, the
transform from the offset, and the verification, which a failed transform skips (R137). -/
def decryptPage (p : Params) (base : Bytes) (page : Word) (pg : Bytes) : Code × Bytes :=
  let d := detectHeader p page pg
  let ans := xform p .dec base page (d.page.drop d.off)
  let out := d.page.take d.off ++ ans.output
  if cipherFailed ans then (.cipherFail, out)
  else if d.isNew then verifyRestore p (savedHeader pg) out
  else (.ok, out)

/-- The page and the outcome code after PG_ENCRYPT: the whole buffer goes through the cipher (R134). -/
def encryptPage (p : Params) (base : Bytes) (page : Word) (pg : Bytes) : Code × Bytes :=
  let ans := xform p .enc base page pg
  (if cipherFailed ans then .cipherFail else .ok, ans.output)

/-! ### The commands -/

/-- The result of a page command: the page is written back at SRC and the code reported (R134, R135). -/
def storePage (s : State) (r : Code × Bytes) : State := finish r.1 (memWrite s (srcAddr s) r.2)

/-- The effect of PG_ENCRYPT (R134). -/
def pgEncryptEffect (s : State) : State :=
  storePage s (encryptPage s.params (baseKeyBytes s) (pageOperand s) (sourceBytes s))

/-- PG_ENCRYPT (R134): a length of at most MAX_PG_LEN, then both ranges valid. -/
def execPgEncrypt (s : State) : Outcome :=
  runCommand
    [(lenCount s ≤ Config.maxPgLen, .badLen), (keyValid s Config.keyLength && sourceValid s, .badAddr)]
    pgEncryptEffect s

/-- The effect of PG_DECRYPT (R135). -/
def pgDecryptEffect (s : State) : State :=
  storePage s (decryptPage s.params (baseKeyBytes s) (pageOperand s) (sourceBytes s))

/-- PG_DECRYPT (R135): a length of at most MAX_PG_LEN, for page 1 of at least 24, then both ranges valid. -/
def execPgDecrypt (s : State) : Outcome :=
  runCommand
    [(lenCount s ≤ Config.maxPgLen, .badLen),
     (pageOperand s != 1 || Config.minPage1Len ≤ lenCount s, .badLen),
     (keyValid s Config.keyLength && sourceValid s, .badAddr)]
    pgDecryptEffect s

end Sys2Proof.Machine
end

