-- ==== Sys2Proof/Machine/Dispatch.lean ====
section
/-! DEFINITION. The dispatch of the nine commands (30_encoding.md R53). -/

namespace Sys2Proof.Machine

def exec (i : Instr) (s : State) : Host.Outcome State Fault Refusal :=
  match i with
  | .mdInit => Sys2Proof.Machine.execMdInit s
  | .mdUpdate => Sys2Proof.Machine.execMdUpdate s
  | .mdFinal => Sys2Proof.Machine.execMdFinal s
  | .mdAbort => Sys2Proof.Machine.execMdAbort s
  | .scApply => Sys2Proof.Machine.execScApply s
  | .ivGen => Sys2Proof.Machine.execIvGen s
  | .kdfDerive => Sys2Proof.Machine.execKdfDerive s
  | .pgEncrypt => Sys2Proof.Machine.execPgEncrypt s
  | .pgDecrypt => Sys2Proof.Machine.execPgDecrypt s

end Sys2Proof.Machine
end

