-- ==== Sys2Proof/Machine/HostPort.lean ====
section
/-! DEFINITION. What each access of the host does (10_state.md R15 to R18, 20_memory.md R34, 70_reset_and_hazards.md R157,
R165). A write to CMD is the only way a command starts (R15). -/

namespace Sys2Proof.Machine

/-- A word written to CMD starts one command: it is decoded and executed to its end, or refused with BAD_CMD (R15, R52,
R143). -/
def startCommand (w : Word) (s : State) : Outcome :=
  match decode w with
  | .ok i => exec i s
  | .error _ => raise .badCmd s

/-- A register written: CMD starts a command (R15), STATUS clears STICKY or does nothing (R16), an operand register
stores the value (R17). -/
def writeReg (r : RegName) (v : Word) (s : State) : Outcome :=
  match r with
  | .cmd => startCommand v s
  | .status => .next (s.setStatus (s.status.written v))
  | .src | .len | .dst | .key | .klen | .param => .next (s.setRegs (s.regs.write r v))

/-- A whole word written at a byte offset; a reserved offset ignores it (R18). -/
def writeOffset (offset : Nat) (v : Word) (s : State) : Outcome :=
  match RegName.ofOffset offset with
  | some r => writeReg r v s
  | none => .next s

/-- The state with what the host's access brought back. -/
def respond (s : State) (x : HostResponse) : State := s.setHost { s.host with response := some x }

/-- One access of the host. A register access that is not a whole word at a multiple of 4 has no move (R165), nor has an
access to a BUF byte that does not exist (R24). -/
def hostAccess (a : HostAccess) (s : State) : Outcome :=
  match a with
  | .writeReg offset v =>
    if offset % 4 = 0 then writeOffset offset v s else .fault .registerAccessNotWholeWord
  | .readReg offset =>
    if offset % 4 = 0 then .next (respond s (.word (readOffset s offset))) else .fault .registerAccessNotWholeWord
  | .partialReg _ _ => .fault .registerAccessNotWholeWord
  | .writeBuf addr data =>
    if rangeValid s.params addr data.length then .next (memWrite s addr data) else .fault .bufAddressDoesNotExist
  | .readBuf addr count =>
    if rangeValid s.params addr count then .next (respond s (.bytes (memRead s addr count)))
    else .fault .bufAddressDoesNotExist
  | .reset => .next (resetMove s)

/-- The state as an access sees it: the access itself is taken off the list, and nothing has been brought back yet. -/
def State.accepting (s : State) (rest : List HostAccess) : State := s.setHost ⟨rest, none⟩

/-- One step: the oldest pending access of the host, each complete before the next (R47); with none pending CORE does
nothing (R159). -/
def hostStep (s : State) : Outcome :=
  match s.host.pending with
  | [] => .next s
  | a :: rest => hostAccess a (s.accepting rest)

end Sys2Proof.Machine
end

