-- ==== Sys2Proof/Machine/Step.lean ====
section
/-! DEFINITION. The step of the machine, and where a word is placed for it to run. -/

namespace Sys2Proof.Machine

/-- One step of the machine (00_scope.md R11): one access of the host. -/
def step (s : State) : Host.Outcome State Fault Refusal := hostStep s

/-- The state in which the next step runs the command whose word is w: the host's next access writes w to CMD (R15).
CORE fetches no instructions (R22), so this is the only place a command word stands. Log entry 5. -/
def State.withFetchWord (s : State) (nbits w : Nat) : State :=
  s.setHost { s.host with pending := .writeReg 0 (BitVec.ofNat 32 (w % 2 ^ nbits)) :: s.host.pending }

end Sys2Proof.Machine
end

