-- ==== Sys2Proof/Machine/Asm.lean ====
section
/-! DEFINITION. The host's programs (30_encoding.md R58 to R63): a program is the list of accesses it makes. The shorthand
of R59 writes the operand registers a command reads, in the order SRC, LEN, DST, KEY, KLEN, PARAM, and then CMD. -/

namespace Sys2Proof.Machine.Asm

/-- `WR reg, value` (R58). -/
def wr (r : RegName) (v : Word) : HostAccess := .writeReg r.offset v

/-- `RD reg` (R58). -/
def rd (r : RegName) : HostAccess := .readReg r.offset

/-- `MD_INIT` (R59). -/
def mdInit : List HostAccess := [wr .cmd 0x01]

/-- `MD_UPDATE src=A, len=N` (R59). -/
def mdUpdate (src len : Word) : List HostAccess := [wr .src src, wr .len len, wr .cmd 0x02]

/-- `MD_FINAL dst=A` (R59). -/
def mdFinal (dst : Word) : List HostAccess := [wr .dst dst, wr .cmd 0x03]

/-- `MD_ABORT` (R59). -/
def mdAbort : List HostAccess := [wr .cmd 0x04]

/-- `SC_APPLY src=A, len=N, dst=A, key=A, klen=N` (R59). -/
def scApply (src len dst key klen : Word) : List HostAccess :=
  [wr .src src, wr .len len, wr .dst dst, wr .key key, wr .klen klen, wr .cmd 0x10]

/-- `IV_GEN dst=A, seed=S` (R59): the register gets `as_u32(S)`. -/
def ivGen (dst : Word) (seed : Int) : List HostAccess := [wr .dst dst, wr .param (asU32 seed), wr .cmd 0x20]

/-- `KDF_DERIVE src=A, len=N, dst=A` (R59). -/
def kdfDerive (src len dst : Word) : List HostAccess := [wr .src src, wr .len len, wr .dst dst, wr .cmd 0x30]

/-- `PG_ENCRYPT src=A, len=N, key=A, page=P` (R59). -/
def pgEncrypt (src len key page : Word) : List HostAccess :=
  [wr .src src, wr .len len, wr .key key, wr .param page, wr .cmd 0x40]

/-- `PG_DECRYPT src=A, len=N, key=A, page=P` (R59). -/
def pgDecrypt (src len key page : Word) : List HostAccess :=
  [wr .src src, wr .len len, wr .key key, wr .param page, wr .cmd 0x41]

/-- `MD_DIGEST src=A, len=N, dst=D` (R60). -/
def mdDigest (src len dst : Word) : List HostAccess := mdInit ++ mdUpdate src len ++ mdFinal dst

/-- `SC_INPLACE buf=A, len=N, key=K, klen=L` (R61). -/
def scInplace (buf len key klen : Word) : List HostAccess := scApply buf len buf key klen

/-- `DERIVE_KEY pw=A, len=N, key=K` (R62). -/
def deriveKey (pw len key : Word) : List HostAccess := kdfDerive pw len key

/-- `TRANSFORM_PAGE page=P, dir=.., key=K, buf=A, len=N` (R62). -/
def transformPage (page : Word) (dir : Direction) (key buf len : Word) : List HostAccess :=
  match dir with
  | .enc => pgEncrypt buf len key page
  | .dec => pgDecrypt buf len key page

/-- `ERASE addr=A, len=N` (R63): a host action, N zero bytes written to BUF. -/
def erase (addr n : Nat) : List HostAccess := [.writeBuf addr (zeros n)]

end Sys2Proof.Machine.Asm
end

