-- ==== Sys2Proof/Safety.lean ====
section
/-! DEFINITION. The terms claims are stated in: the invariant every step keeps, frames, the spec's tables of what a
command reads and writes, and runs of the machine. -/

namespace Sys2Proof.Machine

/-! ### The invariant -/

/-- The invariant of the machine: BUF is in canonical form and lists only addresses that exist, BUF_SIZE is one R6
allows, and CTX0 satisfies R20. -/
structure State.Inv (s : State) : Prop where
  bufCanonical : s.buf.wf = true
  bufInside : ∀ c ∈ s.buf, c.1 < s.params.bufSize
  bufSizeAllowed : s.params.bufSize ≤ 2 ^ 32
  openCtx : s.ctx0.valid = true →
    s.ctx0.ctx.bits.toNat % 8 = 0 ∧ s.ctx0.ctx.pend.length = s.ctx0.ctx.bits.toNat / 8 % 64
  closedCtx : s.ctx0.valid = false → s.ctx0.ctx = ⟨⟨0, 0, 0, 0⟩, 0, []⟩

/-! ### Frames -/

/-- The address lies outside the n bytes from addr. -/
abbrev Outside (a addr n : Nat) : Prop := a < addr ∨ addr + n ≤ a

/-- What no command writes: the operand registers (R17), the parameters (R28) and the host's side. -/
structure Kept (s t : State) : Prop where
  regs : t.regs = s.regs
  params : t.params = s.params
  host : t.host = s.host

/-- The command ended with the code, and STICKY is set by a code other than OK and otherwise as it was (R16). -/
structure EndsWith (c : Code) (s t : State) : Prop where
  code : t.status.code = c
  sticky : t.status.sticky = (s.status.sticky || c != .ok)

/-- Every byte of BUF reads as before. -/
def BufKept (s t : State) : Prop := ∀ a, t.buf.read a = s.buf.read a

/-- Every byte of BUF outside the n bytes from addr reads as before. -/
def BufKeptOutside (s t : State) (addr n : Nat) : Prop := ∀ a, Outside a addr n → t.buf.read a = s.buf.read a

/-- A refusal (R141): STATUS has the code and STICKY, nothing else changed. -/
def RefusedWith (c : Code) (s t : State) : Prop := t = s.setStatus ⟨c, true⟩

/-! ### The spec's tables -/

/-- The operand registers each command reads (R55). -/
def readsOperand : Instr → RegName → Bool
  | .mdUpdate, .src | .mdUpdate, .len => true
  | .mdFinal, .dst => true
  | .scApply, .src | .scApply, .len | .scApply, .dst | .scApply, .key | .scApply, .klen => true
  | .ivGen, .dst | .ivGen, .param => true
  | .kdfDerive, .src | .kdfDerive, .len | .kdfDerive, .dst => true
  | .pgEncrypt, .src | .pgEncrypt, .len | .pgEncrypt, .key | .pgEncrypt, .param => true
  | .pgDecrypt, .src | .pgDecrypt, .len | .pgDecrypt, .key | .pgDecrypt, .param => true
  | _, _ => false

/-- The codes each command can end with (R140, column "raised by"). -/
def producesCode : Instr → Code → Bool
  | _, .ok => true
  | .pgEncrypt, .cipherFail | .pgDecrypt, .cipherFail => true
  | .pgDecrypt, .hdrMismatch => true
  | .mdUpdate, .badSeq | .mdFinal, .badSeq => true
  | .scApply, .badLen | .pgEncrypt, .badLen | .pgDecrypt, .badLen => true
  | .mdUpdate, .badAddr | .mdFinal, .badAddr | .scApply, .badAddr | .ivGen, .badAddr | .kdfDerive, .badAddr => true
  | .pgEncrypt, .badAddr | .pgDecrypt, .badAddr => true
  | _, _ => false

/-- The BUF range a command may write: address and byte count (R33, R41, R138). -/
def writeRange (s : State) : Instr → Nat × Nat
  | .mdInit | .mdUpdate | .mdAbort => (0, 0)
  | .mdFinal | .ivGen | .kdfDerive => (s.regs.dst.toNat, 16)
  | .scApply => (s.regs.dst.toNat, s.regs.len.toNat)
  | .pgEncrypt | .pgDecrypt => (s.regs.src.toNat, s.regs.len.toNat)

/-- The ranges a command checks: address and byte count (R146). -/
def checkedRanges (s : State) : Instr → List (Nat × Nat)
  | .mdInit | .mdAbort => []
  | .mdUpdate => [(s.regs.src.toNat, s.regs.len.toNat)]
  | .mdFinal | .ivGen => [(s.regs.dst.toNat, 16)]
  | .scApply => [(s.regs.key.toNat, s.regs.klen.toNat), (s.regs.src.toNat, s.regs.len.toNat),
      (s.regs.dst.toNat, s.regs.len.toNat)]
  | .kdfDerive => [(s.regs.src.toNat, min s.regs.len.toNat 32), (s.regs.dst.toNat, 16)]
  | .pgEncrypt | .pgDecrypt => [(s.regs.key.toNat, 16), (s.regs.src.toNat, s.regs.len.toNat)]

/-- A range is inside BUF (R37). -/
abbrev RangeOk (s : State) (r : Nat × Nat) : Prop := r.2 = 0 ∨ r.1 + r.2 ≤ s.params.bufSize

/-- The commands of the digest engine, the only ones that read or write CTX0 (R33, R82). -/
def isDigestCommand : Instr → Bool
  | .mdInit | .mdUpdate | .mdFinal | .mdAbort => true
  | .scApply | .ivGen | .kdfDerive | .pgEncrypt | .pgDecrypt => false

/-! ### Runs -/

/-- n steps, each answering a next state, lead from s to t: `Host.Core.run core n s = .next t` (Laws/Exec.lean,
`runsTo_iff_run`). -/
def RunsTo : Nat → State → State → Prop
  | 0, s, t => s = t
  | n + 1, s, t => ∃ u, step s = .next u ∧ RunsTo n u t

/-- The state with a program of the host as the accesses to come. -/
def State.loaded (s : State) (program : List HostAccess) : State := s.setHost ⟨program, none⟩

/-- Every host access still pending is one the spec defines. -/
def State.pendingWf (s : State) : Bool := s.host.pending.all (HostAccess.wf s.params.bufSize)

/-- A safe run: n steps reach no fault and no refusal. -/
def SafeRun (n : Nat) (s : State) : Prop := ∃ t, RunsTo n s t

/-- The access neither resets CORE nor starts one of MD_INIT, MD_FINAL, MD_ABORT: what may stand between the MD_INIT
and the MD_FINAL of one digest (R81). -/
def mayInterleave : HostAccess → Bool
  | .reset => false
  | .writeReg 0 w => w != encode .mdInit && w != encode .mdFinal && w != encode .mdAbort
  | _ => true

/-- What one access adds to an open digest: the data snapshot of an MD_UPDATE that ends OK, else nothing (R81). -/
def snapshotOf (s : State) : HostAccess → Bytes
  | .writeReg 0 w =>
    if w = encode .mdUpdate ∧ s.ctx0.valid ∧ rangeValid s.params s.regs.src.toNat s.regs.len.toNat then
      memRead s s.regs.src.toNat s.regs.len.toNat
    else []
  | _ => []

/-- The concatenation m1 ∥ .. ∥ mk of the snapshots of the next n accesses of the host (R81). -/
def snapshots : Nat → State → Bytes
  | 0, _ => []
  | n + 1, s =>
    match s.host.pending, step s with
    | a :: _, .next t => snapshotOf s a ++ snapshots n t
    | _, _ => []

end Sys2Proof.Machine
end

