-- ==== Sys2Proof/Certificates/Slice0/Obligations.lean ====
section
/-! DEFINITION. What the provers are asked to settle: one Prop per statement, each naming the rules of spec/ it comes
from. -/

open Sys2Proof Sys2Proof.Machine

/-! ### Reset, registers and the host interface -/

/-- R29, R30, R158: after reset, for any parameters and any BUF, every register offset reads 0, STATUS's stored fields
are OK and 0, CTX0 is wiped, and BUF is what it was given as. -/
def Obligations.ResetLeavesRegistersZeroAndContextWiped : Prop :=
  (∀ p buf offset, readOffset (State.resetWith p buf) offset = 0) ∧
  (∀ p buf, (State.resetWith p buf).status = ⟨.ok, false⟩ ∧
    (State.resetWith p buf).regs = ⟨0, 0, 0, 0, 0, 0⟩ ∧
    (State.resetWith p buf).ctx0 = ⟨⟨⟨0, 0, 0, 0⟩, 0, []⟩, false⟩ ∧
    (State.resetWith p buf).buf = buf ∧ (State.resetWith p buf).host.pending = []) ∧
  (∀ s rest, s.host.pending = .reset :: rest →
    ∃ t, step s = .next t ∧ (∀ offset, readOffset t offset = 0) ∧ t.status = ⟨.ok, false⟩ ∧
      t.regs = ⟨0, 0, 0, 0, 0, 0⟩ ∧ t.ctx0 = ⟨⟨⟨0, 0, 0, 0⟩, 0, []⟩, false⟩ ∧ t.buf = s.buf ∧ t.params = s.params ∧
      t.host = ⟨rest, none⟩)

/-- The reset state meets the invariant. Its BUF_SIZE and its empty listing are the model's choices (log entries 2 and
3). -/
def Obligations.ResetMeetsTheInvariant : Prop := State.reset.Inv

/-- Every step from a state that meets the invariant ends in one that meets it: R20's invariant of CTX0, the canonical
form of BUF (the model's), BUF's addresses (R24) and BUF_SIZE (R6). -/
def Obligations.StepKeepsTheInvariant : Prop := ∀ s t, s.Inv → step s = .next t → t.Inv

/-- R12, R24, R165 together: a step stops exactly on a host access the spec gives no move (log entry 9), and a host that
makes none of them runs on for any number of steps. -/
def Obligations.OnlyUndefinedHostAccessesStop : Prop :=
  (∀ s, (∃ t, step s = .next t) ↔ ∀ a ∈ s.host.pending.head?, a.wf s.params.bufSize = true) ∧
  (∀ n s, s.pendingWf = true → SafeRun n s)

/-- R16: the fields of STATUS as the host reads them; what a write to STATUS does; that every command sets STICKY when
it ends with a code other than OK and never clears it; that CODE is changed by nothing but a command and reset; and that
STICKY is cleared by nothing but reset and a write of a word with bit 9 set. -/
def Obligations.StatusRegisterFieldsAndSticky : Prop :=
  (∀ s, (readOffset s 4).extractLsb' 0 4 = s.status.code.toBits ∧
    (readOffset s 4).getLsbD 8 = s.ctx0.valid ∧ (readOffset s 4).getLsbD 9 = s.status.sticky ∧
    ∀ k, (4 ≤ k ∧ k ≤ 7) ∨ 10 ≤ k → (readOffset s 4).getLsbD k = false) ∧
  ([Code.ok, .cipherFail, .hdrMismatch, .badCmd, .badSeq, .badLen, .badAddr].map Code.toBits = [0, 1, 2, 3, 4, 5, 6]) ∧
  (∀ s v rest, s.host.pending = .writeReg 4 v :: rest →
    step s = .next { s with status := ⟨s.status.code, s.status.sticky && !v.getLsbD 9⟩, host := ⟨rest, none⟩ }) ∧
  (∀ s t w rest, s.host.pending = .writeReg 0 w :: rest → step s = .next t →
    t.status.sticky = (s.status.sticky || t.status.code != .ok)) ∧
  (∀ s t, step s = .next t → t.status.code ≠ s.status.code →
    ∃ rest, s.host.pending = .reset :: rest ∨ ∃ w, s.host.pending = .writeReg 0 w :: rest) ∧
  (∀ s t, step s = .next t → s.status.sticky = true → t.status.sticky = false →
    ∃ rest, s.host.pending = .reset :: rest ∨ ∃ v, v.getLsbD 9 = true ∧ s.host.pending = .writeReg 4 v :: rest)

/-- R14, R15, R17, R18, R42: a read of a register brings back CMD as 0, STATUS as its word, an operand register as its
value and a reserved offset as 0, and changes nothing of the machine. -/
def Obligations.RegisterReadsHaveNoSideEffect : Prop :=
  ∀ s offset rest, offset % 4 = 0 → s.host.pending = .readReg offset :: rest →
    ∃ w, step s = .next (s.setHost ⟨rest, some (.word w)⟩) ∧
      (offset = 0 → w = 0) ∧ (offset = 4 → w = statusWord s) ∧ (offset = 8 → w = s.regs.src) ∧
      (offset = 12 → w = s.regs.len) ∧ (offset = 16 → w = s.regs.dst) ∧ (offset = 20 → w = s.regs.key) ∧
      (offset = 24 → w = s.regs.klen) ∧ (offset = 28 → w = s.regs.param) ∧ (32 ≤ offset → w = 0)

/-- R17: a write to an operand register is read back by the next access, and no other offset reads differently for it;
BUF and CTX0 are as they were. -/
def Obligations.OperandRegisterWriteIsReadBack : Prop :=
  ∀ s v offset rest, offset ∈ [8, 12, 16, 20, 24, 28] → s.host.pending = .writeReg offset v :: rest →
    ∃ t, step s = .next t ∧ readOffset t offset = v ∧ (∀ o, o ≠ offset → readOffset t o = readOffset s o) ∧
      t.status = s.status ∧ t.ctx0 = s.ctx0 ∧ t.buf = s.buf ∧ t.params = s.params ∧ t.host = ⟨rest, none⟩

/-- R18: reserved offsets read 0 and ignore writes. -/
def Obligations.ReservedOffsetsReadZeroAndIgnoreWrites : Prop :=
  ∀ s offset v rest, offset % 4 = 0 → 0x20 ≤ offset →
    (s.host.pending = .writeReg offset v :: rest → step s = .next (s.setHost ⟨rest, none⟩)) ∧
    (s.host.pending = .readReg offset :: rest → step s = .next (s.setHost ⟨rest, some (.word 0)⟩))

/-- R165: a register access that is not a whole word at a multiple of 4 has no move. -/
def Obligations.MisshapenRegisterAccessHasNoMove : Prop :=
  ∀ s offset v n rest,
    (offset % 4 ≠ 0 → s.host.pending = .writeReg offset v :: rest → step s = .fault .registerAccessNotWholeWord) ∧
    (offset % 4 ≠ 0 → s.host.pending = .readReg offset :: rest → step s = .fault .registerAccessNotWholeWord) ∧
    (s.host.pending = .partialReg offset n :: rest → step s = .fault .registerAccessNotWholeWord)

/-- R34 to R37 for the host: bytes written are read back and no other byte changes; an access to bytes that do not exist
has no move. Canonical BUF is an invariant of the model. -/
def Obligations.HostBufferWritesAreReadBack : Prop :=
  (∀ s addr data rest, s.buf.wf = true → RangeOk s (addr, data.length) →
    s.host.pending = .writeBuf addr data :: .readBuf addr data.length :: rest →
    ∃ t, step s = .next t ∧ BufKeptOutside s t addr data.length ∧ t.status = s.status ∧ t.regs = s.regs ∧
      t.ctx0 = s.ctx0 ∧ t.params = s.params ∧ step t = .next (t.setHost ⟨rest, some (.bytes data)⟩)) ∧
  (∀ s addr data rest, ¬ RangeOk s (addr, data.length) → s.host.pending = .writeBuf addr data :: rest →
    step s = .fault .bufAddressDoesNotExist) ∧
  (∀ s addr n rest, ¬ RangeOk s (addr, n) → s.host.pending = .readBuf addr n :: rest →
    step s = .fault .bufAddressDoesNotExist)

/-- R159, R22: with no access pending CORE does nothing; as first command after reset MD_UPDATE and MD_FINAL are refused
with BAD_SEQ. -/
def Obligations.NothingHappensWithoutAnAccess : Prop :=
  (∀ s, s.host.pending = [] → step s = .next s) ∧
  (∀ p buf i rest, i = .mdUpdate ∨ i = .mdFinal →
    ∃ t, step ((State.resetWith p buf).loaded (.writeReg 0 (encode i) :: rest)) = .next t ∧
      t.status = ⟨.badSeq, true⟩ ∧ t.buf = buf)

/-- Each step takes exactly one pending access of the host, oldest first, and leaves the parameters alone (the model's
form of R47 and R28, log entries 1 and 5). -/
def Obligations.EachStepTakesOneAccessAndKeepsParameters : Prop :=
  ∀ s t, step s = .next t → t.host.pending = s.host.pending.tail ∧ t.params = s.params

/-! ### Decoding -/

/-- R15: a write to CMD of a word that decodes to a command is that command executed, with the access taken off the
host's list. -/
def Obligations.CmdWriteRunsTheDecodedCommand : Prop :=
  ∀ s w i rest, s.host.pending = .writeReg 0 w :: rest → decode w = .ok i →
    step s = exec i (s.setHost ⟨rest, none⟩)

/-- R52, R53: the decoder accepts exactly the nine words of the table, each as its row's command; every other word is
illegal and ends with BAD_CMD. -/
def Obligations.DecoderAcceptsExactlyTheTable : Prop :=
  (∀ w i, decode w = .ok i ↔ w = encode i) ∧
  (Instr.all.map encode = [0x01, 0x02, 0x03, 0x04, 0x10, 0x20, 0x30, 0x40, 0x41]) ∧
  (∀ i, i ∈ Instr.all ∧ i.wf = true ∧ (encode i).extractLsb' 8 24 = 0#24) ∧
  (∀ w : Word, w.extractLsb' 8 24 ≠ 0#24 → decode w = .error .reservedFieldNotZero) ∧
  (∀ w : Word, w.extractLsb' 8 24 = 0#24 →
    w.extractLsb' 0 8 ∉ ([0x01, 0x02, 0x03, 0x04, 0x10, 0x20, 0x30, 0x40, 0x41] : List Byte) →
    decode w = .error .opcodeNotAssigned) ∧
  (∀ s w e, decode w = .error e → ∃ t, startCommand w s = .next t ∧ RefusedWith .badCmd s t)

/-- R53 on words written out from its table, and the illegal words V8.1, V8.6 and V8.15. -/
def Obligations.WordsOfTheTableDecode : Prop :=
  decode 0x00000001 = .ok .mdInit ∧ decode 0x00000002 = .ok .mdUpdate ∧ decode 0x00000003 = .ok .mdFinal ∧
  decode 0x00000004 = .ok .mdAbort ∧ decode 0x00000010 = .ok .scApply ∧ decode 0x00000020 = .ok .ivGen ∧
  decode 0x00000030 = .ok .kdfDerive ∧ decode 0x00000040 = .ok .pgEncrypt ∧ decode 0x00000041 = .ok .pgDecrypt ∧
  decode 0x00000000 = .error .opcodeNotAssigned ∧ decode 0x00000005 = .error .opcodeNotAssigned ∧
  decode 0x00000141 = .error .reservedFieldNotZero

/-- R54, R143: a reserved word raises BAD_CMD whatever the state, changing nothing but STATUS; a command of the table
never does. -/
def Obligations.ReservedWordRaisesBadCmd : Prop :=
  (∀ s w rest, s.host.pending = .writeReg 0 w :: rest →
    (w.extractLsb' 8 24 ≠ 0#24 ∨
      w.extractLsb' 0 8 ∉ ([0x01, 0x02, 0x03, 0x04, 0x10, 0x20, 0x30, 0x40, 0x41] : List Byte)) →
    step s = .next ((s.setHost ⟨rest, none⟩).setStatus ⟨.badCmd, true⟩)) ∧
  (∀ i s t, exec i s = .next t → t.status.code ≠ .badCmd)

/-! ### Rules about every command -/

/-- R12: every word written to CMD ends its command in a next state, with a code its row of R140 names; no command
faults, hangs or is refused a meaning. -/
def Obligations.EveryCommandEndsInANextState : Prop :=
  (∀ i s, ∃ t, exec i s = .next t ∧ producesCode i t.status.code = true) ∧
  (∀ w s, ∃ t, startCommand w s = .next t)

/-- R140, R142: the codes a command can end with are those whose row names it; no code has a value above 6, no two share
one; and the two-valued status is ok for OK and HDR_MISMATCH only. -/
def Obligations.OutcomeCodesAreThoseOfTheTable : Prop :=
  (∀ i s t, exec i s = .next t → producesCode i t.status.code = true) ∧
  (∀ c : Code, c.toBits.toNat ≤ 6) ∧ (∀ c d : Code, c.toBits = d.toBits → c = d) ∧
  (∀ c : Code, c.isOk = true ↔ c = .ok ∨ c = .hdrMismatch)

/-- R141: a command that ends with a refusal code has changed STATUS.CODE and STICKY and nothing else; and it has read
no byte of BUF and had no answer from the block cipher: with any other bytes and answers it is refused alike. -/
def Obligations.RefusalChangesOnlyStatus : Prop :=
  (∀ w s t, startCommand w s = .next t → t.status.code.isRefusal = true → RefusedWith t.status.code s t) ∧
  (∀ i s t, exec i s = .next t → t.status.code.isRefusal = true → RefusedWith t.status.code s t ∧
    ∀ m rows, ∃ u, exec i { s with buf := m, params := { s.params with bcRows := rows } } = .next u ∧
      RefusedWith t.status.code { s with buf := m, params := { s.params with bcRows := rows } } u)

/-- R17, R33: no command changes an operand register, a parameter or the host's side. -/
def Obligations.NoCommandChangesAnOperandRegister : Prop := ∀ i s t, exec i s = .next t → Kept s t

/-- R55: no command writes an operand register, and one that a command's row leaves blank is ignored, whatever it
holds. -/
def Obligations.BlankOperandRegistersAreIgnored : Prop :=
  ∀ i s t, exec i s = .next t → t.regs = s.regs ∧
    ∀ r v, readsOperand i r = false →
      exec i (s.setRegs (s.regs.write r v)) = .next (t.setRegs (t.regs.write r v))

/-- R33, R41: the bytes of BUF a command may write; every other byte reads as before. -/
def Obligations.CommandsWriteOnlyTheirRange : Prop :=
  ∀ i s t, exec i s = .next t → BufKeptOutside s t (writeRange s i).1 (writeRange s i).2

/-- R82: a command of another unit neither reads nor writes CTX0. -/
def Obligations.OtherUnitsNeverTouchTheHostContext : Prop :=
  ∀ i s t, isDigestCommand i = false → exec i s = .next t →
    t.ctx0 = s.ctx0 ∧ ∀ c, exec i (s.setCtx0 c) = .next (t.setCtx0 c)

/-- R21: two machines that differ only in H, BITS and PEND of CTX0 stay indistinguishable to the host under every access
but a write of MD_FINAL to CMD, and MD_FINAL tells them apart in nothing but the 16 bytes at DST. -/
def Obligations.HostContextIsNotReadable : Prop :=
  (∀ s t c a rest, s.host.pending = a :: rest → a ≠ .writeReg 0 (encode .mdFinal) → step s = .next t →
    ∃ c', step (s.setCtx0 ⟨c, s.ctx0.valid⟩) = .next (t.setCtx0 ⟨c', t.ctx0.valid⟩)) ∧
  (∀ s t c, exec .mdFinal s = .next t →
    ∃ t', exec .mdFinal (s.setCtx0 ⟨c, s.ctx0.valid⟩) = .next t' ∧ t'.status = t.status ∧ t'.regs = t.regs ∧
      t'.ctx0.valid = t.ctx0.valid ∧ t'.params = t.params ∧ t'.host = t.host ∧
      ∀ a, Outside a s.regs.dst.toNat 16 → t'.buf.read a = t.buf.read a)

/-- R144: BAD_SEQ is raised by MD_UPDATE and MD_FINAL exactly when no context is open, and by nothing else. -/
def Obligations.BadSeqExactlyWithoutOpenContext : Prop :=
  ∀ i s t, exec i s = .next t →
    (t.status.code = .badSeq ↔ (i = .mdUpdate ∨ i = .mdFinal) ∧ s.ctx0.valid = false)

/-- R145: BAD_LEN is raised exactly for the length operands it lists. -/
def Obligations.BadLenExactlyForListedLengths : Prop :=
  ∀ i s t, exec i s = .next t →
    (t.status.code = .badLen ↔
      (i = .scApply ∧ (s.regs.klen.toNat = 0 ∨ 256 < s.regs.klen.toNat)) ∨
      ((i = .pgEncrypt ∨ i = .pgDecrypt) ∧ 2 ^ 28 - 1 < s.regs.len.toNat) ∨
      (i = .pgDecrypt ∧ s.regs.param = 1 ∧ s.regs.len.toNat < 24))

/-- R146, R149: a command that reports neither BAD_SEQ nor BAD_LEN reports BAD_ADDR exactly when a range it would access
is not inside BUF, or SC_APPLY's source and destination overlap without being identical; it has then changed nothing but
STATUS. -/
def Obligations.BadAddrExactlyForRangesAndOverlap : Prop :=
  ∀ i s t, exec i s = .next t → t.status.code ≠ .badSeq → t.status.code ≠ .badLen →
    (t.status.code = .badAddr ↔
      (∃ r ∈ checkedRanges s i, ¬ RangeOk s r) ∨
      (i = .scApply ∧ 0 < s.regs.len.toNat ∧ s.regs.src ≠ s.regs.dst ∧
        ∃ a, s.regs.src.toNat ≤ a ∧ a < s.regs.src.toNat + s.regs.len.toNat ∧
          s.regs.dst.toNat ≤ a ∧ a < s.regs.dst.toNat + s.regs.len.toNat)) ∧
    (t.status.code = .badAddr → RefusedWith .badAddr s t)

/-- R147, R148, R149: CIPHER_FAIL exactly when the transaction of a page command that passed its checks returned a
negative number; HDR_MISMATCH exactly when PG_DECRYPT on a new-scheme page 1 had an answer that is not negative and whose
first eight bytes differ from the saved ones. -/
def Obligations.CipherFailAndHdrMismatchExactly : Prop :=
  ∀ i s t, exec i s = .next t → t.status.code.isRefusal = false →
    let page := memRead s s.regs.src.toNat s.regs.len.toNat
    let base := memRead s s.regs.key.toNat 16
    let d := detectHeader s.params s.regs.param page
    (t.status.code = .cipherFail ↔
      (i = .pgEncrypt ∧ (xform s.params .enc base s.regs.param page).ret.toInt < 0) ∨
      (i = .pgDecrypt ∧ (xform s.params .dec base s.regs.param (d.page.drop d.off)).ret.toInt < 0)) ∧
    (t.status.code = .hdrMismatch ↔
      i = .pgDecrypt ∧ s.regs.param = 1 ∧ newScheme (headerField s.params page) = true ∧
        0 ≤ (xform s.params .dec base 1 (d.page.drop 16)).ret.toInt ∧
        (xform s.params .dec base 1 (d.page.drop 16)).output.take 8 ≠ (page.drop 16).take 8)

/-! ### Digest engine -/

/-- R77: MD_INIT. -/
def Obligations.MdInitOpensAFreshContext : Prop :=
  ∀ s, exec .mdInit s = .next { s with
    status := ⟨.ok, s.status.sticky⟩
    ctx0 := ⟨⟨⟨0x67452301, 0xefcdab89, 0x98badcfe, 0x10325476⟩, 0, []⟩, true⟩ }

/-- R80: MD_ABORT. -/
def Obligations.MdAbortWipesTheContext : Prop :=
  ∀ s, exec .mdAbort s = .next { s with
    status := ⟨.ok, s.status.sticky⟩
    ctx0 := ⟨⟨⟨0, 0, 0, 0⟩, 0, []⟩, false⟩ }

/-- R78: MD_UPDATE absorbs the LEN bytes at SRC; BITS grows by 8·LEN modulo 2^64; H changes only when a block fills; LEN
= 0 leaves CTX0 as it was; BUF is read only. -/
def Obligations.MdUpdateAbsorbsTheSource : Prop :=
  (∀ s, s.ctx0.valid = true → RangeOk s (s.regs.src.toNat, s.regs.len.toNat) →
    ∃ t, exec .mdUpdate s = .next t ∧
      t.ctx0 = ⟨ctxAbsorb s.ctx0.ctx (memRead s s.regs.src.toNat s.regs.len.toNat), true⟩ ∧
      t.ctx0.ctx.bits = s.ctx0.ctx.bits + 8 * s.regs.len.setWidth 64 ∧
      (s.ctx0.ctx.pend.length + s.regs.len.toNat < 64 → t.ctx0.ctx.h = s.ctx0.ctx.h ∧
        t.ctx0.ctx.pend = s.ctx0.ctx.pend ++ memRead s s.regs.src.toNat s.regs.len.toNat) ∧
      (s.ctx0.ctx.pend.length < 64 →
        t.ctx0.ctx.pend.length = (s.ctx0.ctx.pend.length + s.regs.len.toNat) % 64) ∧
      (s.regs.len = 0 → t.ctx0 = s.ctx0) ∧ EndsWith .ok s t ∧ t.buf = s.buf ∧ Kept s t) ∧
  (∀ s, s.ctx0.valid = false → ∃ t, exec .mdUpdate s = .next t ∧ RefusedWith .badSeq s t) ∧
  (∀ s, s.ctx0.valid = true → ¬ RangeOk s (s.regs.src.toNat, s.regs.len.toNat) →
    ∃ t, exec .mdUpdate s = .next t ∧ RefusedWith .badAddr s t)

/-- R79: MD_FINAL writes the 16-byte digest at DST, wipes CTX0 and clears VALID; refused without an open context or with
a bad range, the context is left open and unchanged. -/
def Obligations.MdFinalDeliversTheDigestAndWipes : Prop :=
  (∀ s, s.buf.wf = true → s.ctx0.valid = true → RangeOk s (s.regs.dst.toNat, 16) →
    ∃ t, exec .mdFinal s = .next t ∧ memRead t s.regs.dst.toNat 16 = ctxFinish s.ctx0.ctx ∧
      BufKeptOutside s t s.regs.dst.toNat 16 ∧ t.ctx0 = ⟨⟨⟨0, 0, 0, 0⟩, 0, []⟩, false⟩ ∧
      EndsWith .ok s t ∧ Kept s t) ∧
  (∀ s, s.ctx0.valid = false → ∃ t, exec .mdFinal s = .next t ∧ RefusedWith .badSeq s t) ∧
  (∀ s, s.ctx0.valid = true → ¬ RangeOk s (s.regs.dst.toNat, 16) →
    ∃ t, exec .mdFinal s = .next t ∧ RefusedWith .badAddr s t)

/-- R74: the finalisation tail of a context with PN pending bytes. -/
def Obligations.PaddingFillsOneOrTwoBlocks : Prop :=
  ∀ c : DigestCtx, c.pend.length ≤ 63 →
    (c.pend.length ≤ 55 → ctxTail c = c.pend ++ [0x80] ++ zeros (55 - c.pend.length) ++ le64 c.bits ∧
      (ctxTail c).length = 64) ∧
    (56 ≤ c.pend.length → ctxTail c = c.pend ++ [0x80] ++ zeros (119 - c.pend.length) ++ le64 c.bits ∧
      (ctxTail c).length = 128)

/-- R76: absorbing a message in any pieces is absorbing it whole, so the digest does not depend on the split; a digest
has 16 bytes. -/
def Obligations.DigestDoesNotDependOnTheSplit : Prop :=
  ∀ (c : DigestCtx) (pieces : List Bytes),
    pieces.foldl ctxAbsorb c = ctxAbsorb c pieces.flatten ∧
    ctxFinish (pieces.foldl ctxAbsorb ctxNew) = md pieces.flatten ∧ (md pieces.flatten).length = 16

/-- R81: the command sequence law. Between an MD_INIT and an MD_FINAL that ends OK stand any accesses of the host other
than reset, MD_INIT, MD_FINAL and MD_ABORT, refused commands and commands of other units among them; then the 16 bytes
at DST are the digest of the concatenated snapshots of the MD_UPDATE commands that ended OK. -/
def Obligations.CommandSequenceLaw : Prop :=
  ∀ (s s1 t : State) (mid rest : List HostAccess), s.buf.wf = true →
    s.host.pending = .writeReg 0 (encode .mdInit) :: (mid ++ .writeReg 0 (encode .mdFinal) :: rest) →
    mid.all mayInterleave = true → step s = .next s1 → RunsTo (mid.length + 2) s t → t.status.code = .ok →
    memRead t t.regs.dst.toNat 16 = md (snapshots mid.length s1) ∧
      t.ctx0 = ⟨⟨⟨0, 0, 0, 0⟩, 0, []⟩, false⟩ ∧ t.host.pending = rest

/-- R60: the pseudo-instruction MD_DIGEST, whose expansion is six host accesses, leaves the digest of the source bytes
at its destination. -/
def Obligations.MdDigestPseudoInstruction : Prop :=
  ∀ (s : State) (src len dst : Word), s.buf.wf = true → RangeOk s (src.toNat, len.toNat) →
    RangeOk s (dst.toNat, 16) →
    ∃ t, RunsTo 6 (s.loaded (Asm.mdDigest src len dst)) t ∧
      memRead t dst.toNat 16 = md (memRead s src.toNat len.toNat) ∧ BufKeptOutside s t dst.toNat 16 ∧
      t.status = ⟨.ok, s.status.sticky⟩ ∧ t.ctx0.valid = false ∧ t.host.pending = []

/-! ### Stream cipher engine -/

/-- R91: the laws of SC: (a) the keystream does not depend on the data, (b) SC with one key is its own inverse, (c) the
prefix law, (d) P stays a permutation of 0..255. -/
def Obligations.StreamCipherLaws : Prop :=
  (∀ key data, sc key data = xorBytes data (sc key (zeros data.length))) ∧
  (∀ key data, sc key (sc key data) = data) ∧
  (∀ key data n, (sc key data).take n = sc key (data.take n)) ∧
  (∀ key n, (ksaSteps key n).p.Perm Perm.identity ∧ (prgaStep^[n] ⟨ksa key, 0, 0⟩).p.Perm Perm.identity)

/-- R88, R90: only the first 256 bytes of a key can influence SC, and a key and its repetition schedule alike. -/
def Obligations.StreamKeyIsCyclicAndBounded : Prop :=
  (∀ key data, sc key data = sc (key.take 256) data) ∧ (∀ key data, sc (key ++ key) data = sc key data)

/-- R92: SC_APPLY. -/
def Obligations.ScApplyMasksTheSource : Prop :=
  (∀ s, s.buf.wf = true → 1 ≤ s.regs.klen.toNat → s.regs.klen.toNat ≤ 256 →
    RangeOk s (s.regs.key.toNat, s.regs.klen.toNat) → RangeOk s (s.regs.src.toNat, s.regs.len.toNat) →
    RangeOk s (s.regs.dst.toNat, s.regs.len.toNat) →
    (s.regs.len = 0 ∨ s.regs.src = s.regs.dst ∨ s.regs.src.toNat + s.regs.len.toNat ≤ s.regs.dst.toNat ∨
      s.regs.dst.toNat + s.regs.len.toNat ≤ s.regs.src.toNat) →
    ∃ t, exec .scApply s = .next t ∧
      memRead t s.regs.dst.toNat s.regs.len.toNat =
        sc (memRead s s.regs.key.toNat s.regs.klen.toNat) (memRead s s.regs.src.toNat s.regs.len.toNat) ∧
      BufKeptOutside s t s.regs.dst.toNat s.regs.len.toNat ∧ t.ctx0 = s.ctx0 ∧ EndsWith .ok s t ∧ Kept s t) ∧
  (∀ s, (s.regs.klen.toNat = 0 ∨ 256 < s.regs.klen.toNat) →
    ∃ t, exec .scApply s = .next t ∧ RefusedWith .badLen s t) ∧
  (∀ s, 1 ≤ s.regs.klen.toNat → s.regs.klen.toNat ≤ 256 →
    (¬ RangeOk s (s.regs.key.toNat, s.regs.klen.toNat) ∨ ¬ RangeOk s (s.regs.src.toNat, s.regs.len.toNat) ∨
      ¬ RangeOk s (s.regs.dst.toNat, s.regs.len.toNat) ∨
      (s.regs.src ≠ s.regs.dst ∧ s.regs.src.toNat < s.regs.dst.toNat + s.regs.len.toNat ∧
        s.regs.dst.toNat < s.regs.src.toNat + s.regs.len.toNat)) →
    ∃ t, exec .scApply s = .next t ∧ RefusedWith .badAddr s t)

/-- R91 b, R92: SC_APPLY in place, twice, restores BUF byte for byte when the key does not lie in the buffer. -/
def Obligations.ScApplyTwiceInPlaceRestores : Prop :=
  ∀ s, s.buf.wf = true → 1 ≤ s.regs.klen.toNat → s.regs.klen.toNat ≤ 256 →
    RangeOk s (s.regs.key.toNat, s.regs.klen.toNat) → RangeOk s (s.regs.src.toNat, s.regs.len.toNat) →
    s.regs.dst = s.regs.src →
    (s.regs.key.toNat + s.regs.klen.toNat ≤ s.regs.src.toNat ∨
      s.regs.src.toNat + s.regs.len.toNat ≤ s.regs.key.toNat) →
    ∃ t u, exec .scApply s = .next t ∧ exec .scApply t = .next u ∧ u.buf = s.buf ∧
      u.status = ⟨.ok, s.status.sticky⟩ ∧ u.ctx0 = s.ctx0 ∧ Kept s u

/-! ### IV generator -/

/-- R102: the range lemma: no product or sum of a round leaves the s32 range under truncating division, the new state is
in 0..2147483398, and flooring division would leave it. -/
def Obligations.RecurrenceNeverOverflows : Prop :=
  (∀ z : Int, -2 ^ 31 ≤ z → z < 2 ^ 31 →
    (0 ≤ z → 0 ≤ lcgRem z ∧ lcgRem z ≤ 52773 ∧ 0 ≤ lcgQuot z ∧ lcgQuot z ≤ 40692 ∧
      -154263372 ≤ lcgRaw z ∧ lcgRaw z ≤ 2147438916) ∧
    (z < 0 → -52773 ≤ lcgRem z ∧ lcgRem z ≤ 0 ∧ -40692 ≤ lcgQuot z ∧ lcgQuot z ≤ 0 ∧
      -2147438916 ≤ lcgRaw z ∧ lcgRaw z ≤ 154263372) ∧
    lcgStep z = (if lcgRaw z < 0 then lcgRaw z + 2147483399 else lcgRaw z) ∧
    0 ≤ lcgStep z ∧ lcgStep z ≤ 2147483398) ∧
  (∀ seed : Int, -2 ^ 31 ≤ seed → seed < 2 ^ 31 →
    lcgInit seed = if seed = 2147483647 then -2147483648 else seed + 1) ∧
  (Int.fdiv (-580515) 52774 = -12 ∧ Int.fmod (-580515) 52774 = 52773 ∧
    (2 : Int) ^ 31 - 1 < 40692 * 52773 - 3791 * (-12))

/-- R99: the scratch key is the four states after the rounds, little-endian, the top byte of each at most 0x7F; the IV
has 16 bytes. -/
def Obligations.ScratchKeyIsTheFourStates : Prop :=
  ∀ seed : Int, -2 ^ 31 ≤ seed → seed < 2 ^ 31 →
    let z := lcgInit seed
    scratchKey seed =
      le32 (BitVec.ofInt 32 (lcgStep z)) ++ le32 (BitVec.ofInt 32 (lcgStep^[2] z)) ++
      le32 (BitVec.ofInt 32 (lcgStep^[3] z)) ++ le32 (BitVec.ofInt 32 (lcgStep^[4] z)) ∧
    (∀ j, 1 ≤ j → j ≤ 4 → ((BitVec.ofInt 32 (lcgStep^[j] z)).toNat : Int) = lcgStep^[j] z ∧
      ∀ b ∈ (scratchKey seed)[4 * j - 1]?, b.toNat ≤ 0x7F) ∧
    (scratchKey seed).length = 16 ∧ (ivgen seed).length = 16

/-- R101: IV_GEN. -/
def Obligations.IvGenWritesTheIv : Prop :=
  (∀ s, s.buf.wf = true → RangeOk s (s.regs.dst.toNat, 16) →
    ∃ t, exec .ivGen s = .next t ∧ memRead t s.regs.dst.toNat 16 = ivgen s.regs.param.toInt ∧
      (s.regs.param = 0xFFFFFFFF → memRead t s.regs.dst.toNat 16 = md (zeros 16)) ∧
      BufKeptOutside s t s.regs.dst.toNat 16 ∧ t.ctx0 = s.ctx0 ∧ EndsWith .ok s t ∧ Kept s t) ∧
  (∀ s, ¬ RangeOk s (s.regs.dst.toNat, 16) → ∃ t, exec .ivGen s = .next t ∧ RefusedWith .badAddr s t)

/-! ### Key derivation -/

/-- R107: PADPW is always 32 bytes: the first min(L, 32) bytes of the password, then the first 32 - min(L, 32) of PAD. -/
def Obligations.PaddedPasswordHas32Bytes : Prop :=
  ∀ (p : Params) (pw : Bytes), (padPw p pw).length = 32 ∧
    (∀ k, k < 32 → (padPw p pw)[k]? = if k < pw.length then pw[k]? else p.pad.toList[k - min pw.length 32]?) ∧
    (pw = [] → padPw p pw = p.pad.toList) ∧ (pw.length = 32 → padPw p pw = pw) ∧
    (∀ tail, 32 ≤ pw.length → padPw p (pw ++ tail) = padPw p pw)

/-- R112: passwords that agree on their first 32 bytes derive one key, and a password derives the key of its padded
form; no code reports truncation or padding. -/
def Obligations.TruncationAndPaddingAreSilent : Prop :=
  (∀ (p : Params) (pw pw' : Bytes), 32 ≤ pw.length → 32 ≤ pw'.length → pw.take 32 = pw'.take 32 →
    kdf p pw = kdf p pw') ∧
  (∀ (p : Params) (pw : Bytes), kdf p pw = kdf p (padPw p pw)) ∧
  (∀ s, RangeOk s (s.regs.src.toNat, min s.regs.len.toNat 32) → RangeOk s (s.regs.dst.toNat, 16) →
    ∃ t, exec .kdfDerive s = .next t ∧ t.status.code = .ok)

/-- R109: the owner key keeps its 32 bytes through all passes, and pass i uses the key OV ^ i. -/
def Obligations.OwnerKeyPassesKeepTheLength : Prop :=
  ∀ (p : Params) (up : Bytes) (n : Nat),
    (ownerVerification p).length = 16 ∧ ownerKeyPasses (ownerVerification p) up 0 = up ∧
    (ownerKeyPasses (ownerVerification p) up n).length = up.length ∧
    ownerKeyPasses (ownerVerification p) up (n + 1) =
      sc ((ownerVerification p).map (· ^^^ BitVec.ofNat 8 n)) (ownerKeyPasses (ownerVerification p) up n) ∧
    ownerKey p up = ownerKeyPasses (ownerVerification p) up 20 ∧ ∀ pw, (kdf p pw).length = 16

/-- R111: KDF_DERIVE. -/
def Obligations.KdfDeriveWritesTheBaseKey : Prop :=
  (∀ s, s.buf.wf = true → RangeOk s (s.regs.src.toNat, min s.regs.len.toNat 32) →
    RangeOk s (s.regs.dst.toNat, 16) →
    ∃ t, exec .kdfDerive s = .next t ∧
      memRead t s.regs.dst.toNat 16 = kdf s.params (memRead s s.regs.src.toNat (min s.regs.len.toNat 32)) ∧
      BufKeptOutside s t s.regs.dst.toNat 16 ∧ t.ctx0 = s.ctx0 ∧ EndsWith .ok s t ∧ Kept s t) ∧
  (∀ s, (¬ RangeOk s (s.regs.src.toNat, min s.regs.len.toNat 32) ∨ ¬ RangeOk s (s.regs.dst.toNat, 16)) →
    ∃ t, exec .kdfDerive s = .next t ∧ RefusedWith .badAddr s t)

/-- R111: the key KDF_DERIVE writes depends on no byte of BUF but the first min(LEN, 32) at SRC. -/
def Obligations.KdfDeriveReadsAtMost32Bytes : Prop :=
  ∀ s m t, s.buf.wf = true → m.wf = true →
    (∀ k, k < min s.regs.len.toNat 32 → m.read (s.regs.src.toNat + k) = s.buf.read (s.regs.src.toNat + k)) →
    exec .kdfDerive s = .next t →
    ∃ u, exec .kdfDerive (s.setBuf m) = .next u ∧ u.status = t.status ∧
      (t.status.code = .ok → memRead u s.regs.dst.toNat 16 = memRead t s.regs.dst.toNat 16)

/-! ### Page cipher orchestrator -/

/-- R117, R123, R124, R125: the transform is one transaction. What is sent: CBC, the direction, the key
MD(base ∥ le32(page) ∥ SALT) of 16 bytes with the class for 16 bytes, the iv IVGEN(as_s32(page)) of 16 bytes, the data
and eight times its length. What comes back is BCfun of direction, key, iv and data, as many bytes as the data. -/
def Obligations.TransformIsOneCbcTransaction : Prop :=
  ∀ (p : Params) (dir : Direction) (base : Bytes) (page : Word) (data : Bytes),
    pageRequest p dir base page data =
      { mode := .cbc, direction := dir, key := md (base ++ le32 page ++ p.salt.toList), keyLengthClass := .bytes16,
        iv := ivgen page.toInt, input := data, bitLength := 8 * data.length } ∧
    xform p dir base page data = transact p (pageRequest p dir base page data) ∧
    xform p dir base page data =
      blockCipher p dir (md (base ++ le32 page ++ p.salt.toList)) (ivgen page.toInt) data ∧
    pageKey p base page = md (base ++ le32 page ++ p.salt.toList) ∧ (pageKey p base page).length = 16 ∧
    pageIv page = ivgen page.toInt ∧ (pageIv page).length = 16 ∧
    (xform p dir base page data).output.length = data.length

/-- R128: the page-size encodings NEWSCHEME accepts are exactly eight. -/
def Obligations.NewSchemeAcceptsExactlyEightSizes : Prop :=
  ∀ h : Bytes, h.length = 8 →
    (newScheme h = true ↔
      (h.getD 0 0, h.getD 1 0) ∈ ([(0x02, 0x00), (0x04, 0x00), (0x08, 0x00), (0x10, 0x00), (0x20, 0x00),
        (0x40, 0x00), (0x80, 0x00), (0x00, 0x01)] : List (Byte × Byte)) ∧
      h.getD 5 0 = 0x40 ∧ h.getD 6 0 = 0x20 ∧ h.getD 7 0 = 0x20)

/-- R134: PG_ENCRYPT sends the whole buffer through the cipher, whatever the page number; the buffer becomes what the
cipher returned, with CIPHER_FAIL when its number is negative. -/
def Obligations.PgEncryptTransformsTheBuffer : Prop :=
  (∀ s, s.buf.wf = true → s.regs.len.toNat ≤ 2 ^ 28 - 1 → RangeOk s (s.regs.key.toNat, 16) →
    RangeOk s (s.regs.src.toNat, s.regs.len.toNat) →
    let ans := xform s.params .enc (memRead s s.regs.key.toNat 16) s.regs.param
      (memRead s s.regs.src.toNat s.regs.len.toNat)
    ∃ t, exec .pgEncrypt s = .next t ∧ memRead t s.regs.src.toNat s.regs.len.toNat = ans.output ∧
      BufKeptOutside s t s.regs.src.toNat s.regs.len.toNat ∧ t.ctx0 = s.ctx0 ∧ Kept s t ∧
      (ans.ret.toInt < 0 → EndsWith .cipherFail s t) ∧ (0 ≤ ans.ret.toInt → EndsWith .ok s t)) ∧
  (∀ s, 2 ^ 28 - 1 < s.regs.len.toNat → ∃ t, exec .pgEncrypt s = .next t ∧ RefusedWith .badLen s t) ∧
  (∀ s, s.regs.len.toNat ≤ 2 ^ 28 - 1 →
    (¬ RangeOk s (s.regs.key.toNat, 16) ∨ ¬ RangeOk s (s.regs.src.toNat, s.regs.len.toNat)) →
    ∃ t, exec .pgEncrypt s = .next t ∧ RefusedWith .badAddr s t)

/-- R126, R130, R135: PG_DECRYPT on a page that takes no header logic (a number other than 1, or page 1 without the new
scheme) transforms the whole buffer from byte 0 and verifies nothing. -/
def Obligations.PgDecryptWithoutHeaderLogic : Prop :=
  ∀ s, s.buf.wf = true → s.regs.len.toNat ≤ 2 ^ 28 - 1 → RangeOk s (s.regs.key.toNat, 16) →
    RangeOk s (s.regs.src.toNat, s.regs.len.toNat) →
    (s.regs.param ≠ 1 ∨ (24 ≤ s.regs.len.toNat ∧
      newScheme (headerField s.params (memRead s s.regs.src.toNat s.regs.len.toNat)) = false)) →
    let ans := xform s.params .dec (memRead s s.regs.key.toNat 16) s.regs.param
      (memRead s s.regs.src.toNat s.regs.len.toNat)
    ∃ t, exec .pgDecrypt s = .next t ∧ memRead t s.regs.src.toNat s.regs.len.toNat = ans.output ∧
      BufKeptOutside s t s.regs.src.toNat s.regs.len.toNat ∧ t.ctx0 = s.ctx0 ∧ Kept s t ∧
      (ans.ret.toInt < 0 → EndsWith .cipherFail s t) ∧ (0 ≤ ans.ret.toInt → EndsWith .ok s t)

/-- R129, R130, R132, R137: PG_DECRYPT on a new-scheme page 1. The data that goes through the cipher is bytes 8..15
followed by bytes 24 onward, it lands at byte 16; after success the first eight bytes returned are compared with the
saved bytes 16..23: on a match bytes 0..15 become SIG and the code is OK, else they stay and the code is HDR_MISMATCH;
after failure they stay and the code is CIPHER_FAIL. -/
def Obligations.PgDecryptNewSchemePageOne : Prop :=
  ∀ s, s.buf.wf = true → s.regs.len.toNat ≤ 2 ^ 28 - 1 → RangeOk s (s.regs.key.toNat, 16) →
    RangeOk s (s.regs.src.toNat, s.regs.len.toNat) → s.regs.param = 1 → 24 ≤ s.regs.len.toNat →
    newScheme (headerField s.params (memRead s s.regs.src.toNat s.regs.len.toNat)) = true →
    let src := s.regs.src.toNat
    let len := s.regs.len.toNat
    let ans := xform s.params .dec (memRead s s.regs.key.toNat 16) 1
      (memRead s (src + 8) 8 ++ memRead s (src + 24) (len - 24))
    ∃ t, exec .pgDecrypt s = .next t ∧ memRead t (src + 16) (len - 16) = ans.output ∧
      BufKeptOutside s t src len ∧ t.ctx0 = s.ctx0 ∧ Kept s t ∧
      (ans.ret.toInt < 0 → memRead t src 16 = memRead s src 16 ∧ EndsWith .cipherFail s t) ∧
      (0 ≤ ans.ret.toInt → ans.output.take 8 = memRead s (src + 16) 8 →
        memRead t src 16 = s.params.sig.toList ∧ EndsWith .ok s t) ∧
      (0 ≤ ans.ret.toInt → ans.output.take 8 ≠ memRead s (src + 16) 8 →
        memRead t src 16 = memRead s src 16 ∧ EndsWith .hdrMismatch s t)

/-- R135: the checks of PG_DECRYPT in their order. -/
def Obligations.PgDecryptChecks : Prop :=
  (∀ s, (2 ^ 28 - 1 < s.regs.len.toNat ∨ (s.regs.param = 1 ∧ s.regs.len.toNat < 24)) →
    ∃ t, exec .pgDecrypt s = .next t ∧ RefusedWith .badLen s t) ∧
  (∀ s, s.regs.len.toNat ≤ 2 ^ 28 - 1 → (s.regs.param = 1 → 24 ≤ s.regs.len.toNat) →
    (¬ RangeOk s (s.regs.key.toNat, 16) ∨ ¬ RangeOk s (s.regs.src.toNat, s.regs.len.toNat)) →
    ∃ t, exec .pgDecrypt s = .next t ∧ RefusedWith .badAddr s t)

/-- R139 a: decrypting what PG_ENCRYPT made of a page restores it and ends OK, given that the block cipher inverts itself
on this page's data (R119's law for this key, iv and data), that the key does not lie in the page buffer, and for page 1
that the ciphertext does not look like the new scheme. -/
def Obligations.PageRoundTrip : Prop :=
  ∀ s, s.buf.wf = true → s.regs.len.toNat ≤ 2 ^ 28 - 1 → RangeOk s (s.regs.key.toNat, 16) →
    RangeOk s (s.regs.src.toNat, s.regs.len.toNat) →
    (s.regs.key.toNat + 16 ≤ s.regs.src.toNat ∨ s.regs.src.toNat + s.regs.len.toNat ≤ s.regs.key.toNat) →
    let base := memRead s s.regs.key.toNat 16
    let page := memRead s s.regs.src.toNat s.regs.len.toNat
    let key := pageKey s.params base s.regs.param
    let iv := pageIv s.regs.param
    let enc := blockCipher s.params .enc key iv page
    let dec := blockCipher s.params .dec key iv enc.output
    0 ≤ enc.ret.toInt → 0 ≤ dec.ret.toInt → dec.output = page →
    (s.regs.param = 1 → 24 ≤ s.regs.len.toNat ∧ newScheme (headerField s.params enc.output) = false) →
    ∃ t u, exec .pgEncrypt s = .next t ∧ exec .pgDecrypt t = .next u ∧ u.buf = s.buf ∧
      t.status = ⟨.ok, s.status.sticky⟩ ∧ u.status = ⟨.ok, s.status.sticky⟩ ∧ u.ctx0 = s.ctx0 ∧ Kept s u
end

