-- ==== Sys2Proof/Laws/State.lean ====
section
/-! SUPPORT. One lemma per field per update of State, and the fields after a command has ended, so that no later proof
unfolds a record update. -/

namespace Sys2Proof.Machine

section
variable (s : State)

@[simp] theorem setStatus_status (x : Status) : (s.setStatus x).status = x := rfl
@[simp] theorem setStatus_regs (x : Status) : (s.setStatus x).regs = s.regs := rfl
@[simp] theorem setStatus_ctx0 (x : Status) : (s.setStatus x).ctx0 = s.ctx0 := rfl
@[simp] theorem setStatus_buf (x : Status) : (s.setStatus x).buf = s.buf := rfl
@[simp] theorem setStatus_params (x : Status) : (s.setStatus x).params = s.params := rfl
@[simp] theorem setStatus_host (x : Status) : (s.setStatus x).host = s.host := rfl

@[simp] theorem setRegs_status (x : OperandRegs) : (s.setRegs x).status = s.status := rfl
@[simp] theorem setRegs_regs (x : OperandRegs) : (s.setRegs x).regs = x := rfl
@[simp] theorem setRegs_ctx0 (x : OperandRegs) : (s.setRegs x).ctx0 = s.ctx0 := rfl
@[simp] theorem setRegs_buf (x : OperandRegs) : (s.setRegs x).buf = s.buf := rfl
@[simp] theorem setRegs_params (x : OperandRegs) : (s.setRegs x).params = s.params := rfl
@[simp] theorem setRegs_host (x : OperandRegs) : (s.setRegs x).host = s.host := rfl

@[simp] theorem setCtx0_status (x : Ctx0) : (s.setCtx0 x).status = s.status := rfl
@[simp] theorem setCtx0_regs (x : Ctx0) : (s.setCtx0 x).regs = s.regs := rfl
@[simp] theorem setCtx0_ctx0 (x : Ctx0) : (s.setCtx0 x).ctx0 = x := rfl
@[simp] theorem setCtx0_buf (x : Ctx0) : (s.setCtx0 x).buf = s.buf := rfl
@[simp] theorem setCtx0_params (x : Ctx0) : (s.setCtx0 x).params = s.params := rfl
@[simp] theorem setCtx0_host (x : Ctx0) : (s.setCtx0 x).host = s.host := rfl

@[simp] theorem setBuf_status (x : Memory) : (s.setBuf x).status = s.status := rfl
@[simp] theorem setBuf_regs (x : Memory) : (s.setBuf x).regs = s.regs := rfl
@[simp] theorem setBuf_ctx0 (x : Memory) : (s.setBuf x).ctx0 = s.ctx0 := rfl
@[simp] theorem setBuf_buf (x : Memory) : (s.setBuf x).buf = x := rfl
@[simp] theorem setBuf_params (x : Memory) : (s.setBuf x).params = s.params := rfl
@[simp] theorem setBuf_host (x : Memory) : (s.setBuf x).host = s.host := rfl

@[simp] theorem setHost_status (x : HostPort) : (s.setHost x).status = s.status := rfl
@[simp] theorem setHost_regs (x : HostPort) : (s.setHost x).regs = s.regs := rfl
@[simp] theorem setHost_ctx0 (x : HostPort) : (s.setHost x).ctx0 = s.ctx0 := rfl
@[simp] theorem setHost_buf (x : HostPort) : (s.setHost x).buf = s.buf := rfl
@[simp] theorem setHost_params (x : HostPort) : (s.setHost x).params = s.params := rfl
@[simp] theorem setHost_host (x : HostPort) : (s.setHost x).host = x := rfl

@[simp] theorem finish_status (c : Code) : (finish c s).status = s.status.after c := rfl
@[simp] theorem finish_regs (c : Code) : (finish c s).regs = s.regs := rfl
@[simp] theorem finish_ctx0 (c : Code) : (finish c s).ctx0 = s.ctx0 := rfl
@[simp] theorem finish_buf (c : Code) : (finish c s).buf = s.buf := rfl
@[simp] theorem finish_params (c : Code) : (finish c s).params = s.params := rfl
@[simp] theorem finish_host (c : Code) : (finish c s).host = s.host := rfl

@[simp] theorem memWrite_status (a : Nat) (v : Bytes) : (memWrite s a v).status = s.status := rfl
@[simp] theorem memWrite_regs (a : Nat) (v : Bytes) : (memWrite s a v).regs = s.regs := rfl
@[simp] theorem memWrite_ctx0 (a : Nat) (v : Bytes) : (memWrite s a v).ctx0 = s.ctx0 := rfl
@[simp] theorem memWrite_buf (a : Nat) (v : Bytes) : (memWrite s a v).buf = s.buf.writeBytes a v := rfl
@[simp] theorem memWrite_params (a : Nat) (v : Bytes) : (memWrite s a v).params = s.params := rfl
@[simp] theorem memWrite_host (a : Nat) (v : Bytes) : (memWrite s a v).host = s.host := rfl

@[simp] theorem after_code (x : Status) (c : Code) : (x.after c).code = c := rfl
@[simp] theorem after_sticky (x : Status) (c : Code) : (x.after c).sticky = (x.sticky || c != .ok) := rfl

end

end Sys2Proof.Machine
end

