-- ==== Sys2Proof/Laws/Memory.lean ====
section
/-! SUPPORT. The laws of BUF: a read after a write, what a write leaves alone, the canonical form, and that canonical
memories with the same bytes are equal. -/

namespace Sys2Proof.Machine

/-- A listed cell at or above the bound the canonical form is taken from. -/
theorem wfFrom_lower_bound {lo : Nat} {m : Memory} (h : Memory.wfFrom lo m = true) : ∀ c ∈ m, lo ≤ c.1 := by
  induction m generalizing lo with
  | nil => simp
  | cons c m ih =>
    obtain ⟨k, v⟩ := c
    simp only [Memory.wfFrom, Bool.and_eq_true, decide_eq_true_eq] at h
    rintro c (_ | ⟨_, hc⟩)
    · exact h.1.1
    · have := ih h.2 c hc
      omega

/-- A canonical memory may be taken from any lower bound. -/
theorem wfFrom_mono {lo lo' : Nat} {m : Memory} (hle : lo' ≤ lo) (h : Memory.wfFrom lo m = true) :
    Memory.wfFrom lo' m = true := by
  cases m with
  | nil => rfl
  | cons c m =>
    simp only [Memory.wfFrom, Bool.and_eq_true, decide_eq_true_eq] at h ⊢
    exact ⟨⟨by omega, h.1.2⟩, h.2⟩

/-- An address below every listed one reads as unlisted. -/
theorem read_of_below {lo a : Nat} {m : Memory} (h : Memory.wfFrom lo m = true) (ha : a < lo) :
    m.read a = Memory.unlisted := by
  induction m generalizing lo with
  | nil => rfl
  | cons c m ih =>
    obtain ⟨k, v⟩ := c
    simp only [Memory.wfFrom, Bool.and_eq_true, decide_eq_true_eq] at h
    rw [Memory.read, if_neg (by omega)]
    exact ih h.2 (by omega)

/-- A write leaves every other byte alone, in any memory. -/
theorem read_write_other {m : Memory} {a a' : Nat} {b : Byte} (hne : a' ≠ a) :
    (m.write a b).read a' = m.read a' := by
  induction m with
  | nil => by_cases hb : b = Memory.unlisted <;> simp [Memory.write, Memory.read, hb, hne]
  | cons c m ih =>
    obtain ⟨k, v⟩ := c
    simp only [Memory.write]
    split
    · split <;> simp [Memory.read, hne]
    · split
      · subst_vars
        split <;> simp [Memory.read, hne]
      · simp [Memory.read, ih]

/-- A byte written is the byte read back. -/
theorem read_write_same {lo : Nat} {m : Memory} {a : Nat} {b : Byte} (h : Memory.wfFrom lo m = true) :
    (m.write a b).read a = b := by
  induction m generalizing lo with
  | nil => by_cases hb : b = Memory.unlisted <;> simp [Memory.write, Memory.read, hb]
  | cons c m ih =>
    obtain ⟨k, v⟩ := c
    have h' := h
    simp only [Memory.wfFrom, Bool.and_eq_true, decide_eq_true_eq] at h'
    simp only [Memory.write]
    split
    · split
      · rename_i hb
        rw [hb]
        exact read_of_below (lo := k) (by simp [Memory.wfFrom, h']) ‹a < k›
      · simp [Memory.read]
    · split
      · subst_vars
        split
        · rename_i hb
          rw [hb]
          exact read_of_below h'.2 (by omega)
        · simp [Memory.read]
      · rename_i hne
        rw [Memory.read, if_neg hne]
        exact ih h'.2

/-- A write keeps the canonical form. -/
theorem wfFrom_write {lo : Nat} {m : Memory} {a : Nat} {b : Byte} (h : Memory.wfFrom lo m = true) (ha : lo ≤ a) :
    Memory.wfFrom lo (m.write a b) = true := by
  induction m generalizing lo with
  | nil => by_cases hb : b = Memory.unlisted <;> simp [Memory.write, Memory.wfFrom, hb, ha]
  | cons c m ih =>
    obtain ⟨k, v⟩ := c
    have h' := h
    simp only [Memory.wfFrom, Bool.and_eq_true, decide_eq_true_eq] at h'
    simp only [Memory.write]
    split
    · split
      · exact h
      · simp only [Memory.wfFrom, Bool.and_eq_true, decide_eq_true_eq, bne_iff_ne]
        exact ⟨⟨ha, ‹_›⟩, ⟨by omega, by simpa using h'.1.2⟩, h'.2⟩
    · split
      · subst_vars
        split
        · exact wfFrom_mono (by omega) h'.2
        · simp only [Memory.wfFrom, Bool.and_eq_true, decide_eq_true_eq, bne_iff_ne]
          exact ⟨⟨ha, ‹_›⟩, h'.2⟩
      · simp only [Memory.wfFrom, Bool.and_eq_true, decide_eq_true_eq]
        exact ⟨h'.1, ih h'.2 (by omega)⟩

/-- A write keeps the canonical form. -/
theorem wf_write {m : Memory} (a : Nat) (b : Byte) (h : m.wf = true) : (m.write a b).wf = true :=
  wfFrom_write h (Nat.zero_le a)

/-- A write lists no address but its own anew. -/
theorem mem_write_address {m : Memory} {a : Nat} {b : Byte} {c : Host.Cell} (h : c ∈ m.write a b) :
    c ∈ m ∨ c.1 = a := by
  induction m with
  | nil =>
    by_cases hb : b = Memory.unlisted
    · simp [Memory.write, hb] at h
    · simp only [Memory.write, hb, if_false, List.mem_singleton] at h
      exact .inr (by rw [h])
  | cons d m ih =>
    obtain ⟨k, v⟩ := d
    simp only [Memory.write] at h
    split at h
    · split at h
      · exact .inl h
      · rcases List.mem_cons.1 h with rfl | h
        · exact .inr rfl
        · exact .inl h
    · split at h
      · split at h
        · exact .inl (List.mem_cons_of_mem _ h)
        · rcases List.mem_cons.1 h with rfl | h
          · exact .inr rfl
          · exact .inl (List.mem_cons_of_mem _ h)
      · rcases List.mem_cons.1 h with rfl | h
        · exact .inl List.mem_cons_self
        · exact (ih h).imp_left (List.mem_cons_of_mem _)

@[simp] theorem writeBytes_nil (m : Memory) (a : Nat) : m.writeBytes a [] = m := by cases m <;> rfl

@[simp] theorem writeBytes_cons (m : Memory) (a : Nat) (b : Byte) (bs : Bytes) :
    m.writeBytes a (b :: bs) = (m.write a b).writeBytes (a + 1) bs := by cases m <;> rfl

/-- Writing a sequence keeps the canonical form. -/
theorem wf_writeBytes {m : Memory} (a : Nat) (bs : Bytes) (h : m.wf = true) : (m.writeBytes a bs).wf = true := by
  induction bs generalizing m a with
  | nil => simpa
  | cons b bs ih => simpa using ih (a + 1) (wf_write a b h)

/-- Writing a sequence leaves every byte outside its range alone, in any memory. -/
theorem read_writeBytes_outside {m : Memory} {a a' : Nat} {bs : Bytes} (h : a' < a ∨ a + bs.length ≤ a') :
    (m.writeBytes a bs).read a' = m.read a' := by
  induction bs generalizing m a with
  | nil => simp
  | cons b bs ih =>
    simp only [List.length_cons] at h
    rw [writeBytes_cons, ih (by omega), read_write_other (by omega)]

/-- Byte k of a sequence written is the byte read back. -/
theorem read_writeBytes_inside {m : Memory} {a k : Nat} {bs : Bytes} (hw : m.wf = true) (hk : k < bs.length) :
    (m.writeBytes a bs).read (a + k) = bs[k] := by
  induction bs generalizing m a k with
  | nil => simp at hk
  | cons b bs ih =>
    cases k with
    | zero =>
      rw [writeBytes_cons, read_writeBytes_outside (by omega)]
      exact read_write_same hw
    | succ k =>
      have := ih (a := a + 1) (wf_write a b hw) (k := k) (by simpa using hk)
      simpa [Nat.add_assoc, Nat.add_comm 1 k] using this

/-- Writing a sequence lists only addresses of its range anew. -/
theorem mem_writeBytes_address {m : Memory} {a : Nat} {bs : Bytes} {c : Host.Cell} (h : c ∈ m.writeBytes a bs) :
    c ∈ m ∨ (a ≤ c.1 ∧ c.1 < a + bs.length) := by
  induction bs generalizing m a with
  | nil => exact .inl (by simpa using h)
  | cons b bs ih =>
    rw [writeBytes_cons] at h
    rcases ih h with h | h
    · rcases mem_write_address h with h | h
      · exact .inl h
      · exact .inr (by simp; omega)
    · exact .inr (by simp; omega)

@[simp] theorem readBytes_length (m : Memory) (a n : Nat) : (m.readBytes a n).length = n := by
  simp [Memory.readBytes]

@[simp] theorem readBytes_zero (m : Memory) (a : Nat) : m.readBytes a 0 = [] := rfl

@[simp] theorem readBytes_getElem (m : Memory) (a n k : Nat) (h : k < (m.readBytes a n).length) :
    (m.readBytes a n)[k] = m.read (a + k) := by
  simp [Memory.readBytes]

/-- A range read in two parts. -/
theorem readBytes_add (m : Memory) (a n k : Nat) : m.readBytes a (n + k) = m.readBytes a n ++ m.readBytes (a + n) k := by
  refine List.ext_getElem (by simp) fun i h1 h2 => ?_
  simp only [readBytes_length] at h1
  by_cases h : i < n
  · rw [List.getElem_append_left (by simpa using h)]
    simp
  · rw [List.getElem_append_right (by simp; omega)]
    simp only [readBytes_getElem, readBytes_length]
    congr 1
    omega

/-- The first bytes of a range. -/
theorem readBytes_take (m : Memory) (a : Nat) {n k : Nat} (h : k ≤ n) : (m.readBytes a n).take k = m.readBytes a k := by
  obtain ⟨j, rfl⟩ := Nat.exists_eq_add_of_le h
  rw [readBytes_add, List.take_append_of_le_length (by simp), List.take_of_length_le (by simp)]

/-- The rest of a range. -/
theorem readBytes_drop (m : Memory) (a : Nat) {n k : Nat} (h : k ≤ n) :
    (m.readBytes a n).drop k = m.readBytes (a + k) (n - k) := by
  obtain ⟨j, rfl⟩ := Nat.exists_eq_add_of_le h
  rw [readBytes_add, List.drop_append_of_le_length (by simp), List.drop_of_length_le (by simp)]
  simp

/-- Two memories with the same bytes in a range read alike there. -/
theorem readBytes_congr {m m' : Memory} {a n : Nat} (h : ∀ k, k < n → m.read (a + k) = m'.read (a + k)) :
    m.readBytes a n = m'.readBytes a n :=
  List.map_congr_left fun k hk => h k (List.mem_range.1 hk)

/-- A sequence written is read back. -/
theorem readBytes_writeBytes_same {m : Memory} (a : Nat) (bs : Bytes) (hw : m.wf = true) :
    (m.writeBytes a bs).readBytes a bs.length = bs := by
  refine List.ext_getElem (by simp) fun k h _ => ?_
  rw [readBytes_getElem]
  exact read_writeBytes_inside hw (by simpa using h)

/-- A range that shares no byte with what is written reads as before. -/
theorem readBytes_writeBytes_disjoint {m : Memory} {a a' n : Nat} {bs : Bytes}
    (h : a' + n ≤ a ∨ a + bs.length ≤ a') : (m.writeBytes a bs).readBytes a' n = m.readBytes a' n :=
  readBytes_congr fun k hk => read_writeBytes_outside (by omega)

/-- Canonical memories with the same bytes are equal. -/
theorem wfFrom_ext {lo : Nat} {m m' : Memory} (h : Memory.wfFrom lo m = true) (h' : Memory.wfFrom lo m' = true)
    (heq : ∀ a, m.read a = m'.read a) : m = m' := by
  induction m generalizing lo m' with
  | nil =>
    cases m' with
    | nil => rfl
    | cons c m' =>
      obtain ⟨k, v⟩ := c
      simp only [Memory.wfFrom, Bool.and_eq_true, bne_iff_ne] at h'
      exact absurd (by simpa [Memory.read] using (heq k).symm) h'.1.2
  | cons c m ih =>
    obtain ⟨k, v⟩ := c
    have h1 := h
    simp only [Memory.wfFrom, Bool.and_eq_true, decide_eq_true_eq, bne_iff_ne] at h1
    cases m' with
    | nil => exact absurd (by simpa [Memory.read] using heq k) h1.1.2
    | cons c' m' =>
      obtain ⟨k', v'⟩ := c'
      have h2 := h'
      simp only [Memory.wfFrom, Bool.and_eq_true, decide_eq_true_eq, bne_iff_ne] at h2
      have hk : k = k' := by
        rcases Nat.lt_trichotomy k k' with hlt | heq' | hlt
        · have e := heq k
          rw [read_of_below (lo := k') (m := (k', v') :: m') (by simp [Memory.wfFrom, h2]) hlt] at e
          exact absurd (by simpa [Memory.read] using e) h1.1.2
        · exact heq'
        · have e := heq k'
          rw [read_of_below (lo := k) (m := (k, v) :: m) (by simp [Memory.wfFrom, h1]) hlt] at e
          exact absurd (by simpa [Memory.read] using e.symm) h2.1.2
      subst hk
      have hv : v = v' := by simpa [Memory.read] using heq k
      subst hv
      congr 1
      refine ih h1.2 h2.2 fun a => ?_
      by_cases ha : a = k
      · subst ha
        rw [read_of_below h1.2 (by omega), read_of_below h2.2 (by omega)]
      · simpa [Memory.read, ha] using heq a

/-- Canonical memories with the same bytes are equal. -/
theorem wf_ext {m m' : Memory} (h : m.wf = true) (h' : m'.wf = true) (heq : ∀ a, m.read a = m'.read a) : m = m' :=
  wfFrom_ext h h' heq

end Sys2Proof.Machine
end

