-- ==== Sys2Proof/Laws/Ops.lean ====
section
/-! SUPPORT. What each shared operation does, said once: a command's checks and effect, byte orders, ranges, and the
external block cipher's answer. -/

namespace Sys2Proof.Machine

/-! ### Checks and commands -/

@[simp] theorem firstFailure_nil : firstFailure [] = none := rfl

/-- The first failing check of a list, one check at a time. -/
@[simp] theorem firstFailure_cons (b : Bool) (c : Code) (rest : List (Bool × Code)) :
    firstFailure ((b, c) :: rest) = if b then firstFailure rest else some c := rfl

/-- No check fails exactly when all hold. -/
theorem firstFailure_eq_none_iff {cs : List (Bool × Code)} : firstFailure cs = none ↔ ∀ x ∈ cs, x.1 = true := by
  induction cs with
  | nil => simp
  | cons x cs ih =>
    obtain ⟨b, c⟩ := x
    cases b <;> simp [ih]

/-- The code a list of checks fails with is the code of a listed check that does not hold. -/
theorem firstFailure_mem {cs : List (Bool × Code)} {c : Code} (h : firstFailure cs = some c) : (false, c) ∈ cs := by
  induction cs with
  | nil => simp at h
  | cons x cs ih =>
    obtain ⟨b, d⟩ := x
    cases b
    · obtain rfl : d = c := by simpa using h
      exact List.mem_cons_self
    · exact List.mem_cons_of_mem _ (ih (by simpa using h))

/-- Everything a command can do: it is refused by its first failing check, or it has its effect. -/
theorem runCommand_eq_next_iff {cs : List (Bool × Code)} {e : State → State} {s t : State} :
    runCommand cs e s = .next t ↔
      (∃ c, firstFailure cs = some c ∧ t = finish c s) ∨ (firstFailure cs = none ∧ t = e s) := by
  unfold runCommand
  cases firstFailure cs <;> simp [raise, eq_comm]

/-- A command none of whose checks fails has its effect. -/
theorem runCommand_of_pass {cs : List (Bool × Code)} (e : State → State) (s : State) (h : firstFailure cs = none) :
    runCommand cs e s = .next (e s) := by
  simp [runCommand, h]

/-- A command one of whose checks fails changes STATUS only. -/
theorem runCommand_of_fail {cs : List (Bool × Code)} {c : Code} (e : State → State) (s : State)
    (h : firstFailure cs = some c) : runCommand cs e s = .next (finish c s) := by
  simp [runCommand, h, raise]

/-! ### Ranges -/

/-- What a valid range is (R37). -/
theorem rangeValid_iff {p : Params} {a n : Nat} : rangeValid p a n = true ↔ n = 0 ∨ a + n ≤ p.bufSize := by
  simp [rangeValid]

/-- What it is for two ranges of one length to share no byte. -/
theorem rangesDisjoint_iff {a b n : Nat} : rangesDisjoint a b n = true ↔ a + n ≤ b ∨ b + n ≤ a := by
  simp [rangesDisjoint]

/-- A byte of a valid range is a byte of BUF. -/
theorem lt_bufSize_of_rangeValid {p : Params} {a n k : Nat} (h : rangeValid p a n = true) (hk : k < n) :
    a + k < p.bufSize := by
  rcases rangeValid_iff.1 h with h | h <;> omega

@[simp] theorem memRead_length (s : State) (a n : Nat) : (memRead s a n).length = n := readBytes_length ..

/-- A sequence written is read back (R35, R36). -/
theorem memRead_memWrite_same {s : State} {a n : Nat} {v : Bytes} (hw : s.buf.wf = true) (h : v.length = n) :
    memRead (memWrite s a v) a n = v := by
  subst h
  exact readBytes_writeBytes_same a v hw

/-- A range that shares no byte with what is written reads as before. -/
theorem memRead_memWrite_disjoint {s : State} {a a' n : Nat} {v : Bytes} (h : a' + n ≤ a ∨ a + v.length ≤ a') :
    memRead (memWrite s a v) a' n = memRead s a' n :=
  readBytes_writeBytes_disjoint h

/-- STATUS plays no part in reading BUF. -/
@[simp] theorem memRead_finish (c : Code) (s : State) (a n : Nat) : memRead (finish c s) a n = memRead s a n := rfl

/-- CTX0 plays no part in reading BUF. -/
@[simp] theorem memRead_setCtx0 (x : Ctx0) (s : State) (a n : Nat) : memRead (s.setCtx0 x) a n = memRead s a n := rfl

@[simp] theorem sourceBytes_length (s : State) : (sourceBytes s).length = lenCount s := memRead_length ..

@[simp] theorem streamKeyBytes_length (s : State) : (streamKeyBytes s).length = klenCount s := memRead_length ..

@[simp] theorem baseKeyBytes_length (s : State) : (baseKeyBytes s).length = 16 := memRead_length ..

@[simp] theorem passwordBytes_length (s : State) : (passwordBytes s).length = passwordCount s := memRead_length ..

/-! ### Byte orders -/

@[simp] theorem zeros_length (n : Nat) : (zeros n).length = n := by simp [zeros]

@[simp] theorem le32_length (w : Word) : (le32 w).length = 4 := rfl

@[simp] theorem le64_length (w : DWord) : (le64 w).length = 8 := rfl

/-- The s32 range is left alone by `wrap_s32`. -/
theorem wrapS32_of_mem {n : Int} (hl : -2 ^ 31 ≤ n) (hu : n < 2 ^ 31) : wrapS32 n = n := by
  unfold wrapS32
  rw [BitVec.toInt_ofInt]
  exact Int.bmod_eq_of_le (by omega) (by omega)

/-! ### The external block cipher -/

/-- Failure is a negative number (R118). -/
theorem cipherFailed_iff {a : PortAnswer} : cipherFailed a = true ↔ a.ret.toInt < 0 := decide_eq_true_iff

/-- Every number that is not negative is success (R118). -/
theorem cipherFailed_eq_false_iff {a : PortAnswer} : cipherFailed a = false ↔ 0 ≤ a.ret.toInt := by
  rw [← Int.not_lt, ← cipherFailed_iff, Bool.not_eq_true]

/-- BCfun returns as many bytes as it is given (R117). -/
@[simp] theorem blockCipher_length (p : Params) (dir : Direction) (key iv data : Bytes) :
    (blockCipher p dir key iv data).output.length = data.length := by
  unfold blockCipher
  split
  · rename_i r h
    have := List.find?_some h
    simp only [rowAnswers, Bool.and_eq_true, beq_iff_eq] at this
    exact this.2
  · simp

/-- The port returns as many bytes as it is given (R117). -/
@[simp] theorem transact_length (p : Params) (r : PortRequest) : (transact p r).output.length = r.input.length :=
  blockCipher_length ..

end Sys2Proof.Machine
end

