-- ==== Sys2Proof/Laws/Digest.lean ====
section
/-! SUPPORT. The digest engine's functions: absorbing in pieces, what absorbing does to BITS, PEND and H, and the length
of a digest. -/

namespace Sys2Proof.Machine

@[simp] theorem ctxAbsorb_nil (c : DigestCtx) : ctxAbsorb c [] = c := rfl

@[simp] theorem ctxAbsorb_cons (c : DigestCtx) (x : Byte) (xs : Bytes) :
    ctxAbsorb c (x :: xs) = ctxAbsorb (absorbByte c x) xs := rfl

/-- Absorbing two sequences one after the other is absorbing their concatenation. -/
theorem ctxAbsorb_append (c : DigestCtx) (a b : Bytes) : ctxAbsorb c (a ++ b) = ctxAbsorb (ctxAbsorb c a) b :=
  List.foldl_append ..

/-- One byte absorbed, by whether it fills a block (R75). -/
theorem absorbByte_eq (c : DigestCtx) (x : Byte) :
    absorbByte c x =
      if c.pend.length + 1 = 64 then ⟨compress c.h (c.pend ++ [x]), c.bits + 8, []⟩
      else ⟨c.h, c.bits + 8, c.pend ++ [x]⟩ := by
  simp [absorbByte, Config.blockBytes]

/-- One byte adds 8 to BITS. -/
@[simp] theorem absorbByte_bits (c : DigestCtx) (x : Byte) : (absorbByte c x).bits = c.bits + 8 := by
  rw [absorbByte_eq]
  split <;> rfl

/-- Absorbing adds 8 per byte to BITS, modulo 2^64. -/
theorem ctxAbsorb_bits (c : DigestCtx) (data : Bytes) :
    (ctxAbsorb c data).bits = c.bits + 8 * BitVec.ofNat 64 data.length := by
  induction data generalizing c with
  | nil => simp
  | cons x xs ih =>
    have h8 : (8 : DWord) * BitVec.ofNat 64 (xs.length + 1) = 8 + 8 * BitVec.ofNat 64 xs.length := by
      rw [BitVec.ofNat_add, BitVec.mul_add, BitVec.add_comm]
      rfl
    rw [ctxAbsorb_cons, ih, absorbByte_bits, List.length_cons, h8, BitVec.add_assoc]

/-- One byte's effect on PEND's length. -/
theorem absorbByte_pend_length {c : DigestCtx} (x : Byte) (h : c.pend.length < 64) :
    (absorbByte c x).pend.length = (c.pend.length + 1) % 64 := by
  rw [absorbByte_eq]
  split
  · rename_i heq
    rw [heq]
    rfl
  · simp only [List.length_append, List.length_singleton]
    omega

/-- PEND stays shorter than a block. -/
theorem absorbByte_pend_lt {c : DigestCtx} (x : Byte) (h : c.pend.length < 64) :
    (absorbByte c x).pend.length < 64 := by
  rw [absorbByte_pend_length x h]
  omega

/-- The pending count is the byte count modulo 64. -/
theorem ctxAbsorb_pend_length {c : DigestCtx} (data : Bytes) (h : c.pend.length < 64) :
    (ctxAbsorb c data).pend.length = (c.pend.length + data.length) % 64 := by
  induction data generalizing c with
  | nil => simp [Nat.mod_eq_of_lt h]
  | cons x xs ih =>
    rw [ctxAbsorb_cons, ih (absorbByte_pend_lt x h), absorbByte_pend_length x h, List.length_cons]
    omega

/-- While no block fills, H is unchanged and the bytes are pending. -/
theorem ctxAbsorb_of_no_block {c : DigestCtx} (data : Bytes) (h : c.pend.length + data.length < 64) :
    ctxAbsorb c data = ⟨c.h, c.bits + 8 * BitVec.ofNat 64 data.length, c.pend ++ data⟩ := by
  have key : (ctxAbsorb c data).h = c.h ∧ (ctxAbsorb c data).pend = c.pend ++ data := by
    induction data generalizing c with
    | nil => simp
    | cons x xs ih =>
      have hx : absorbByte c x = ⟨c.h, c.bits + 8, c.pend ++ [x]⟩ := by
        simp only [List.length_cons] at h
        rw [absorbByte_eq, if_neg (by omega)]
      rw [ctxAbsorb_cons, hx]
      have := ih (c := ⟨c.h, c.bits + 8, c.pend ++ [x]⟩) (by simp only [List.length_append, List.length_cons] at h ⊢; simp; omega)
      exact ⟨this.1, by rw [this.2]; simp⟩
  have hb := ctxAbsorb_bits c data
  cases hc : ctxAbsorb c data
  simp_all

@[simp] theorem digestBytes_length (h : HashWords) : (digestBytes h).length = 16 := rfl

/-- A digest has 16 bytes. -/
@[simp] theorem ctxFinish_length (c : DigestCtx) : (ctxFinish c).length = 16 := rfl

/-- A digest has 16 bytes. -/
@[simp] theorem md_length (m : Bytes) : (md m).length = 16 := rfl

/-- A fresh context has nothing pending. -/
@[simp] theorem ctxNew_pend : ctxNew.pend = [] := rfl

@[simp] theorem ctxNew_bits : ctxNew.bits = 0 := rfl

end Sys2Proof.Machine
end

