-- ==== Sys2Proof/Laws/Stream.lean ====
section
/-! SUPPORT. The stream cipher's functions: lengths, one byte at a time, and the permutation kept by swaps. -/

namespace Sys2Proof.Machine

@[simp] theorem prgaFrom_nil (g : PrgaState) : prgaFrom g [] = [] := rfl

@[simp] theorem prgaFrom_cons (g : PrgaState) (x : Byte) (xs : Bytes) :
    prgaFrom g (x :: xs) = (x ^^^ prgaByte (prgaStep g)) :: prgaFrom (prgaStep g) xs := rfl

/-- Masking keeps the length. -/
@[simp] theorem prgaFrom_length (g : PrgaState) (data : Bytes) : (prgaFrom g data).length = data.length := by
  induction data generalizing g with
  | nil => rfl
  | cons x xs ih => simp [ih]

/-- SC keeps the length of its data (R90). -/
@[simp] theorem sc_length (key data : Bytes) : (sc key data).length = data.length := prgaFrom_length ..

@[simp] theorem swap_length (p : Perm) (i j : Byte) : (p.swap i j).length = p.length := by simp [Perm.swap]

@[simp] theorem identity_length : Perm.identity.length = 256 := by simp [Perm.identity]

/-- The key schedule, one step at a time (R88). -/
theorem ksaSteps_succ (key : Bytes) (n : Nat) : ksaSteps key (n + 1) = ksaStep key (ksaSteps key n) n := by
  simp [ksaSteps, List.range_succ]

/-- Swapping two entries of a full table permutes it. -/
theorem swap_perm {p : Perm} (i j : Byte) (h : p.length = 256) : (p.swap i j).Perm p := by
  have hi : i.toNat < p.length := h ▸ i.isLt
  have hj : j.toNat < p.length := h ▸ j.isLt
  have := List.set_set_perm (as := p) (i := i.toNat) (j := j.toNat) hi hj
  simpa [Perm.swap, Perm.at, hi, hj] using this

end Sys2Proof.Machine
end

