-- ==== Sys2Proof/Laws/Exec.lean ====
section
/-! SUPPORT. What `exec` and `step` can do, said once: every command is its list of checks and its effect, and a step is
one host access. -/

namespace Sys2Proof.Machine

/-- The checks of each command, in order. -/
def checksOf (i : Instr) (s : State) : List (Bool × Code) :=
  match i with
  | .mdInit | .mdAbort => []
  | .mdUpdate => [(s.ctx0.valid, .badSeq), (sourceValid s, .badAddr)]
  | .mdFinal => [(s.ctx0.valid, .badSeq), (destValid s 16, .badAddr)]
  | .scApply =>
    [(1 ≤ klenCount s && klenCount s ≤ 256, .badLen),
     (keyValid s (klenCount s) && sourceValid s && destValid s (lenCount s), .badAddr),
     (overlapAllowed s, .badAddr)]
  | .ivGen => [(destValid s 16, .badAddr)]
  | .kdfDerive => [(rangeValid s.params (srcAddr s) (passwordCount s), .badAddr), (destValid s 16, .badAddr)]
  | .pgEncrypt => [(lenCount s ≤ 2 ^ 28 - 1, .badLen), (keyValid s 16 && sourceValid s, .badAddr)]
  | .pgDecrypt =>
    [(lenCount s ≤ 2 ^ 28 - 1, .badLen), (pageOperand s != 1 || 24 ≤ lenCount s, .badLen),
     (keyValid s 16 && sourceValid s, .badAddr)]

/-- The effect of each command. -/
def effectOf : Instr → State → State
  | .mdInit => mdInitEffect
  | .mdUpdate => mdUpdateEffect
  | .mdFinal => mdFinalEffect
  | .mdAbort => mdAbortEffect
  | .scApply => scApplyEffect
  | .ivGen => ivGenEffect
  | .kdfDerive => kdfDeriveEffect
  | .pgEncrypt => pgEncryptEffect
  | .pgDecrypt => pgDecryptEffect

/-- Every command is its checks and its effect. -/
theorem exec_eq (i : Instr) (s : State) : exec i s = runCommand (checksOf i s) (effectOf i) s := by
  cases i <;> rfl

/-- Everything a command can do: it is refused by its first failing check, or it has its effect. -/
theorem exec_cases {i : Instr} {s t : State} (h : exec i s = .next t) :
    (∃ c, firstFailure (checksOf i s) = some c ∧ t = finish c s) ∨
      (firstFailure (checksOf i s) = none ∧ t = effectOf i s) := by
  rw [exec_eq] at h
  exact runCommand_eq_next_iff.1 h

/-- A command whose checks hold has its effect. -/
theorem exec_of_pass {i : Instr} {s : State} (h : firstFailure (checksOf i s) = none) :
    exec i s = .next (effectOf i s) := by
  rw [exec_eq]
  exact runCommand_of_pass _ _ h

/-- A command one of whose checks fails is refused. -/
theorem exec_of_fail {i : Instr} {s : State} {c : Code} (h : firstFailure (checksOf i s) = some c) :
    exec i s = .next (finish c s) := by
  rw [exec_eq]
  exact runCommand_of_fail _ _ h

/-- The code a command's checks fail with is a refusal code. -/
theorem refusal_of_firstFailure {i : Instr} {s : State} {c : Code} (h : firstFailure (checksOf i s) = some c) :
    c.isRefusal = true := by
  have hall : ∀ x ∈ checksOf i s, x.2.isRefusal = true := by cases i <;> simp [checksOf, Code.isRefusal]
  exact hall _ (firstFailure_mem h)

/-- A page command's outcome is no refusal code. -/
theorem decryptPage_code (p : Params) (base : Bytes) (page : Word) (pg : Bytes) :
    (decryptPage p base page pg).1.isRefusal = false := by
  simp only [decryptPage, verifyRestore]
  repeat' split
  all_goals rfl

/-- A page command's outcome is no refusal code. -/
theorem encryptPage_code (p : Params) (base : Bytes) (page : Word) (pg : Bytes) :
    (encryptPage p base page pg).1.isRefusal = false := by
  simp only [encryptPage]
  split <;> rfl

/-- A command's effect ends with no refusal code. -/
theorem effect_code (i : Instr) (s : State) : (effectOf i s).status.code.isRefusal = false := by
  cases i
  case pgEncrypt => exact encryptPage_code ..
  case pgDecrypt => exact decryptPage_code ..
  all_goals rfl

/-- STATUS after a command: the code it ended with, and STICKY set by a code other than OK. -/
theorem effect_status (i : Instr) (s : State) :
    (effectOf i s).status = s.status.after (effectOf i s).status.code := by
  cases i <;> simp only [effectOf, mdInitEffect, mdUpdateEffect, mdFinalEffect, mdAbortEffect, scApplyEffect,
    ivGenEffect, kdfDeriveEffect, pgEncryptEffect, pgDecryptEffect, storePage, finish_status, setCtx0_status,
    memWrite_status, after_code]

/-- A command's effect leaves the operand registers, the parameters and the host's side alone. -/
theorem effect_kept (i : Instr) (s : State) :
    (effectOf i s).regs = s.regs ∧ (effectOf i s).params = s.params ∧ (effectOf i s).host = s.host := by
  cases i <;> simp [effectOf, mdInitEffect, mdUpdateEffect, mdFinalEffect, mdAbortEffect, scApplyEffect, ivGenEffect,
    kdfDeriveEffect, pgEncryptEffect, pgDecryptEffect, storePage]

/-- Encryption keeps the page's length. -/
@[simp] theorem encryptPage_length (p : Params) (base : Bytes) (page : Word) (pg : Bytes) :
    (encryptPage p base page pg).2.length = pg.length :=
  transact_length ..

/-- Relocation keeps the length of a page of at least 24 bytes. -/
theorem relocate_length {pg : Bytes} (h : 24 ≤ pg.length) : (relocate pg).length = pg.length := by
  simp only [relocate, List.length_append, List.length_take, List.length_drop]
  omega

/-- Decryption keeps the page's length, where page 1 has at least 24 bytes. -/
theorem decryptPage_length (p : Params) (base : Bytes) (page : Word) (pg : Bytes) (h : page = 1 → 24 ≤ pg.length) :
    (decryptPage p base page pg).2.length = pg.length := by
  have hx : ∀ data, (xform p .dec base page data).output.length = data.length := fun data => transact_length ..
  by_cases hn : takesNewScheme p page pg = true
  · have h1 : 24 ≤ pg.length := h (by simp only [takesNewScheme, Bool.and_eq_true, beq_iff_eq] at hn; exact hn.1)
    have hr := relocate_length h1
    simp only [decryptPage, detectHeader, hn, if_true, verifyRestore, Config.hdrBytes]
    split
    · simp [hx, hr]; omega
    · split <;> simp [hx, hr] <;> omega
  · simp only [decryptPage, detectHeader, hn, Bool.false_eq_true, if_false]
    split <;> simp [hx]

/-- n times the digest of a digest is 16 bytes. -/
theorem iterateMd_length (n : Nat) {d : Bytes} (h : d.length = 16) : (iterateMd n d).length = 16 := by
  induction n generalizing d with
  | zero => exact h
  | succ n ih => exact ih (md_length _)

/-- A base key has 16 bytes. -/
@[simp] theorem kdf_length (p : Params) (pw : Bytes) : (kdf p pw).length = 16 := by
  simp only [kdf, List.length_take]
  rw [iterateMd_length _ (md_length _)]
  rfl

/-- An IV has 16 bytes. -/
@[simp] theorem ivgen_length (seed : Int) : (ivgen seed).length = 16 := md_length _

/-! ### The fields after each effect -/

section
variable (s : State)

@[simp] theorem mdInitEffect_ctx0 : (mdInitEffect s).ctx0 = ⟨ctxNew, true⟩ := by simp [mdInitEffect]
@[simp] theorem mdUpdateEffect_ctx0 : (mdUpdateEffect s).ctx0 = { s.ctx0 with ctx := ctxAbsorb s.ctx0.ctx (sourceBytes s) } := by simp [mdUpdateEffect]
@[simp] theorem mdFinalEffect_ctx0 : (mdFinalEffect s).ctx0 = Ctx0.wiped := by simp [mdFinalEffect]
@[simp] theorem mdAbortEffect_ctx0 : (mdAbortEffect s).ctx0 = Ctx0.wiped := by simp [mdAbortEffect]
@[simp] theorem scApplyEffect_ctx0 : (scApplyEffect s).ctx0 = s.ctx0 := by simp [scApplyEffect]
@[simp] theorem ivGenEffect_ctx0 : (ivGenEffect s).ctx0 = s.ctx0 := by simp [ivGenEffect]
@[simp] theorem kdfDeriveEffect_ctx0 : (kdfDeriveEffect s).ctx0 = s.ctx0 := by simp [kdfDeriveEffect]
@[simp] theorem pgEncryptEffect_ctx0 : (pgEncryptEffect s).ctx0 = s.ctx0 := by simp [pgEncryptEffect, storePage]
@[simp] theorem pgDecryptEffect_ctx0 : (pgDecryptEffect s).ctx0 = s.ctx0 := by simp [pgDecryptEffect, storePage]
@[simp] theorem mdInitEffect_buf : (mdInitEffect s).buf = s.buf := by simp [mdInitEffect]
@[simp] theorem mdUpdateEffect_buf : (mdUpdateEffect s).buf = s.buf := by simp [mdUpdateEffect]
@[simp] theorem mdFinalEffect_buf :
    (mdFinalEffect s).buf =
      s.buf.writeBytes (dstAddr s) (ctxFinish s.ctx0.ctx) := by
  simp [mdFinalEffect]
@[simp] theorem mdAbortEffect_buf : (mdAbortEffect s).buf = s.buf := by simp [mdAbortEffect]
@[simp] theorem scApplyEffect_buf :
    (scApplyEffect s).buf =
      s.buf.writeBytes (dstAddr s) (sc (streamKeyBytes s) (sourceBytes s)) := by
  simp [scApplyEffect]
@[simp] theorem ivGenEffect_buf :
    (ivGenEffect s).buf =
      s.buf.writeBytes (dstAddr s) (ivgen (seedOperand s)) := by
  simp [ivGenEffect]
@[simp] theorem kdfDeriveEffect_buf :
    (kdfDeriveEffect s).buf =
      s.buf.writeBytes (dstAddr s) (kdf s.params (passwordBytes s)) := by
  simp [kdfDeriveEffect]
@[simp] theorem pgEncryptEffect_buf :
    (pgEncryptEffect s).buf =
      s.buf.writeBytes (srcAddr s) (encryptPage s.params (baseKeyBytes s) (pageOperand s) (sourceBytes s)).2 := by
  simp [pgEncryptEffect, storePage]
@[simp] theorem pgDecryptEffect_buf :
    (pgDecryptEffect s).buf =
      s.buf.writeBytes (srcAddr s) (decryptPage s.params (baseKeyBytes s) (pageOperand s) (sourceBytes s)).2 := by
  simp [pgDecryptEffect, storePage]
@[simp] theorem mdInitEffect_code : (mdInitEffect s).status.code = .ok := by simp [mdInitEffect]
@[simp] theorem mdUpdateEffect_code : (mdUpdateEffect s).status.code = .ok := by simp [mdUpdateEffect]
@[simp] theorem mdFinalEffect_code : (mdFinalEffect s).status.code = .ok := by simp [mdFinalEffect]
@[simp] theorem mdAbortEffect_code : (mdAbortEffect s).status.code = .ok := by simp [mdAbortEffect]
@[simp] theorem scApplyEffect_code : (scApplyEffect s).status.code = .ok := by simp [scApplyEffect]
@[simp] theorem ivGenEffect_code : (ivGenEffect s).status.code = .ok := by simp [ivGenEffect]
@[simp] theorem kdfDeriveEffect_code : (kdfDeriveEffect s).status.code = .ok := by simp [kdfDeriveEffect]
@[simp] theorem pgEncryptEffect_code :
    (pgEncryptEffect s).status.code =
      (encryptPage s.params (baseKeyBytes s) (pageOperand s) (sourceBytes s)).1 := by
  simp [pgEncryptEffect, storePage]
@[simp] theorem pgDecryptEffect_code :
    (pgDecryptEffect s).status.code =
      (decryptPage s.params (baseKeyBytes s) (pageOperand s) (sourceBytes s)).1 := by
  simp [pgDecryptEffect, storePage]

end

/-! ### Refusals, ranges and BUF -/

section
variable {s : State}

/-- The range checks as the statements say them. -/
theorem sourceValid_iff : sourceValid s = true ↔ RangeOk s (s.regs.src.toNat, s.regs.len.toNat) := rangeValid_iff

theorem destValid_iff {n : Nat} : destValid s n = true ↔ RangeOk s (s.regs.dst.toNat, n) := rangeValid_iff

theorem keyValid_iff {n : Nat} : keyValid s n = true ↔ RangeOk s (s.regs.key.toNat, n) := rangeValid_iff

theorem passwordValid_iff :
    rangeValid s.params (srcAddr s) (passwordCount s) = true ↔ RangeOk s (s.regs.src.toNat, min s.regs.len.toNat 32) :=
  rangeValid_iff

/-- The overlap rule as the statements say it. -/
theorem overlapAllowed_iff :
    overlapAllowed s = true ↔ s.regs.len = 0 ∨ s.regs.src = s.regs.dst ∨
      s.regs.src.toNat + s.regs.len.toNat ≤ s.regs.dst.toNat ∨
      s.regs.dst.toNat + s.regs.len.toNat ≤ s.regs.src.toNat := by
  simp only [overlapAllowed, Bool.or_eq_true, beq_iff_eq, rangesDisjoint_iff, or_assoc]
  rw [← BitVec.toNat_inj, ← BitVec.toNat_inj]
  exact Iff.rfl

end

/-- A command ended with a code other than OK and no effect is refused with it. -/
theorem refusedWith_finish {c : Code} (s : State) (h : c ≠ .ok) : RefusedWith c s (finish c s) := by
  have hb : (c != .ok) = true := by simpa using h
  simp [RefusedWith, finish, Status.after, hb]

/-- The range a command that is not refused writes is inside BUF. -/
theorem writeRange_ok {i : Instr} {s : State} (h : firstFailure (checksOf i s) = none) : RangeOk s (writeRange s i) := by
  have h := firstFailure_eq_none_iff.1 h
  cases i
  case mdInit => exact .inl rfl
  case mdUpdate => exact .inl rfl
  case mdAbort => exact .inl rfl
  all_goals
    simp only [checksOf, destValid, sourceValid, keyValid, List.mem_cons, List.not_mem_nil, or_false, forall_eq_or_imp,
      forall_eq, Bool.and_eq_true] at h
    exact rangeValid_iff.1 (by tauto)

/-- Everything an effect does to BUF: bytes are written over exactly the command's range. -/
theorem effect_buf {i : Instr} {s : State} (h : firstFailure (checksOf i s) = none) :
    ∃ v : Bytes, v.length = (writeRange s i).2 ∧ (effectOf i s).buf = s.buf.writeBytes (writeRange s i).1 v := by
  cases i
  case mdInit => exact ⟨[], rfl, by simp [effectOf, mdInitEffect]⟩
  case mdUpdate => exact ⟨[], rfl, by simp [effectOf, mdUpdateEffect]⟩
  case mdAbort => exact ⟨[], rfl, by simp [effectOf, mdAbortEffect]⟩
  case mdFinal => exact ⟨ctxFinish s.ctx0.ctx, ctxFinish_length _, by simp [effectOf, mdFinalEffect, writeRange, dstAddr]⟩
  case scApply =>
    exact ⟨sc (streamKeyBytes s) (sourceBytes s), by simp [writeRange, lenCount],
      by simp [effectOf, scApplyEffect, writeRange, dstAddr]⟩
  case ivGen => exact ⟨ivgen (seedOperand s), ivgen_length _, by simp [effectOf, ivGenEffect, writeRange, dstAddr]⟩
  case kdfDerive =>
    exact ⟨kdf s.params (passwordBytes s), kdf_length .., by simp [effectOf, kdfDeriveEffect, writeRange, dstAddr]⟩
  case pgEncrypt =>
    exact ⟨(encryptPage s.params (baseKeyBytes s) (pageOperand s) (sourceBytes s)).2, by simp [writeRange, lenCount],
      by simp [effectOf, pgEncryptEffect, storePage, writeRange, srcAddr]⟩
  case pgDecrypt =>
    refine ⟨(decryptPage s.params (baseKeyBytes s) (pageOperand s) (sourceBytes s)).2, ?_,
      by simp [effectOf, pgDecryptEffect, storePage, writeRange, srcAddr]⟩
    have h24 := (firstFailure_eq_none_iff.1 h) (pageOperand s != 1 || 24 ≤ lenCount s, .badLen) (by simp [checksOf])
    rw [decryptPage_length _ _ _ _ fun hp => by simpa [hp] using h24]
    simp [writeRange, lenCount]

/-! ### Steps -/

/-- A step takes the oldest pending access, or does nothing. -/
theorem step_cases {s t : State} (h : step s = .next t) :
    (s.host.pending = [] ∧ t = s) ∨
      ∃ a rest, s.host.pending = a :: rest ∧ hostAccess a (s.accepting rest) = .next t := by
  unfold step hostStep at h
  cases hp : s.host.pending with
  | nil =>
    rw [hp] at h
    exact .inl ⟨rfl, (Host.Outcome.next.inj h).symm⟩
  | cons a rest =>
    rw [hp] at h
    exact .inr ⟨a, rest, rfl, h⟩

/-- A step with an access pending is that access. -/
theorem step_of_pending {s : State} {a : HostAccess} {rest : List HostAccess} (h : s.host.pending = a :: rest) :
    step s = hostAccess a (s.accepting rest) := by
  unfold step hostStep
  rw [h]

section
variable (s : State) (rest : List HostAccess)

@[simp] theorem accepting_status : (s.accepting rest).status = s.status := rfl
@[simp] theorem accepting_regs : (s.accepting rest).regs = s.regs := rfl
@[simp] theorem accepting_ctx0 : (s.accepting rest).ctx0 = s.ctx0 := rfl
@[simp] theorem accepting_buf : (s.accepting rest).buf = s.buf := rfl
@[simp] theorem accepting_params : (s.accepting rest).params = s.params := rfl
@[simp] theorem accepting_host : (s.accepting rest).host = ⟨rest, none⟩ := rfl

end

/-- One step of a run, by the step's outcome. -/
theorem run_succ (M : Host.Core) (n : Nat) (s : M.State) :
    (∀ u, M.step s = .next u → M.run (n + 1) s = M.run n u) ∧
      (∀ t, M.run (n + 1) s = .next t → ∃ u, M.step s = .next u) := by
  have hrun : M.run (n + 1) s =
      (match M.step s with
      | .next u => M.run n u
      | .fault r => .fault r
      | .refused r => .refused r) := rfl
  rw [hrun]
  cases M.step s <;> simp

/-- A run as the statements say it is a run of the host's interface. -/
theorem runsTo_iff_run {n : Nat} {s t : State} : RunsTo n s t ↔ Host.Core.run Sys2Proof.core n s = .next t := by
  induction n generalizing s with
  | zero => exact ⟨fun h => congrArg _ h, fun h => Host.Outcome.next.inj h⟩
  | succ n ih =>
    refine ⟨fun ⟨u, hu, hr⟩ => ((run_succ Sys2Proof.core n s).1 u hu).trans (ih.1 hr), fun h => ?_⟩
    obtain ⟨u, hu⟩ := (run_succ Sys2Proof.core n s).2 t h
    exact ⟨u, hu, ih.2 (((run_succ Sys2Proof.core n s).1 u hu).symm.trans h)⟩

/-- Everything a write at a byte offset can do: start a command, clear STICKY, store an operand, or nothing. -/
theorem writeOffset_cases {offset : Nat} {v : Word} {s t : State} (h : writeOffset offset v s = .next t) :
    (offset = 0 ∧ startCommand v s = .next t) ∨ (offset = 4 ∧ t = s.setStatus (s.status.written v)) ∨
      (∃ r, RegName.ofOffset offset = some r ∧ r ≠ .cmd ∧ r ≠ .status ∧ t = s.setRegs (s.regs.write r v)) ∨
      (RegName.ofOffset offset = none ∧ t = s) := by
  unfold writeOffset at h
  cases hr : RegName.ofOffset offset with
  | none =>
    rw [hr] at h
    exact .inr (.inr (.inr ⟨rfl, (Host.Outcome.next.inj h).symm⟩))
  | some r =>
    rw [hr] at h
    cases r
    case cmd => exact .inl ⟨by unfold RegName.ofOffset at hr; split at hr <;> simp_all, h⟩
    case status =>
      exact .inr (.inl ⟨by unfold RegName.ofOffset at hr; split at hr <;> simp_all, (Host.Outcome.next.inj h).symm⟩)
    all_goals exact .inr (.inr (.inl ⟨_, rfl, by decide, by decide, (Host.Outcome.next.inj h).symm⟩))

/-- Everything a word written to CMD can do: run the command it decodes to, or be refused. -/
theorem startCommand_cases {w : Word} {s t : State} (h : startCommand w s = .next t) :
    (∃ i, decode w = .ok i ∧ exec i s = .next t) ∨ (∃ e, decode w = .error e ∧ t = finish .badCmd s) := by
  unfold startCommand at h
  cases hd : decode w with
  | ok i =>
    rw [hd] at h
    exact .inl ⟨i, rfl, h⟩
  | error e =>
    rw [hd] at h
    exact .inr ⟨e, rfl, (Host.Outcome.next.inj h).symm⟩

end Sys2Proof.Machine
end

