-- ==== Sys2Proof/Laws/PerInstr.lean ====
section
/-! SUPPORT. The per-instruction family EncodingFields: the two fields of every command's word (30_encoding.md R51, R53). -/

namespace Sys2Proof.Laws.EncodingFields

/-- A command is well formed, bits 31:8 of its word are zero, and bits 7:0 are the opcode the map assigns to it. -/
def Statement (i : Instr) : Prop :=
  i.wf = true ∧ rsvField (encode i) = 0 ∧ opcodeMap (opcodeField (encode i)) = some i

theorem mdInit : Statement .mdInit := ⟨rfl, rfl, rfl⟩

theorem mdUpdate : Statement .mdUpdate := ⟨rfl, rfl, rfl⟩

theorem mdFinal : Statement .mdFinal := ⟨rfl, rfl, rfl⟩

theorem mdAbort : Statement .mdAbort := ⟨rfl, rfl, rfl⟩

theorem scApply : Statement .scApply := ⟨rfl, rfl, rfl⟩

theorem ivGen : Statement .ivGen := ⟨rfl, rfl, rfl⟩

theorem kdfDerive : Statement .kdfDerive := ⟨rfl, rfl, rfl⟩

theorem pgEncrypt : Statement .pgEncrypt := ⟨rfl, rfl, rfl⟩

theorem pgDecrypt : Statement .pgDecrypt := ⟨rfl, rfl, rfl⟩

end Sys2Proof.Laws.EncodingFields
end

