-- ==== Sys2Proof/Tests/Slice0.lean ====
section
/-! SUPPORT. Tests of the model: words written out from 30_encoding.md R53, ill-formed terms, and the vectors of
95_test_vectors.md (V<n>.<m> names a row of it), then one witness for the hypotheses of every statement. -/

namespace Sys2Proof.Tests

open Sys2Proof.Machine

/-! ### Helpers -/

/-- The bytes of a hexadecimal number, most significant first: the order the vectors are printed in. -/
def hexBytes (len n : Nat) : Bytes := (List.range len).map fun i => BitVec.ofNat 8 (n >>> (8 * (len - 1 - i)))

/-- The number a byte sequence is printed as. -/
def hexValue (b : Bytes) : Nat := b.foldl (fun a x => a * 256 + x.toNat) 0

/-- BUF with byte sequences at addresses. -/
def bufWith (l : List (Nat × Bytes)) : Memory := l.foldl (fun m x => m.writeBytes x.1 x.2) []

/-- A state with the given operand registers and BUF, otherwise as after reset, BUF_SIZE = 0x4000. -/
def stateOf (src len dst key klen param : Word) (buf : Memory) : State :=
  (State.resetWith Config.defaultParams buf).setRegs ⟨src, len, dst, key, klen, param⟩

/-- The same with known answers of the block cipher. -/
def pageState (rows : List CipherRow) (src len key param : Word) (buf : Memory) : State :=
  (State.resetWith { Config.defaultParams with bcRows := rows } buf).setRegs ⟨src, len, 0, key, 0, param⟩

/-- STATUS after an outcome. -/
def statusAfter : Outcome → Option Word
  | .next t => some (statusWord t)
  | .fault _ | .refused _ => none

/-- n bytes of BUF after an outcome, as they are printed. -/
def bufAfter (o : Outcome) (addr n : Nat) : Option Nat :=
  match o with
  | .next t => some (hexValue (memRead t addr n))
  | .fault _ | .refused _ => none

/-- CTX0 after an outcome. -/
def ctxAfter : Outcome → Option Ctx0
  | .next t => some t.ctx0
  | .fault _ | .refused _ => none

/-- An open context with "abc" pending. -/
def abcCtx : Ctx0 := ⟨⟨mdInitWords, 24, [0x61, 0x62, 0x63]⟩, true⟩

/-! ### Decoding: words from R53 bit by bit -/

theorem test_decode_digest :
    decode 0b00000000000000000000000000000001 = .ok .mdInit ∧ decode 0b00000000000000000000000000000010 = .ok .mdUpdate ∧
      decode 0b00000000000000000000000000000011 = .ok .mdFinal ∧
      decode 0b00000000000000000000000000000100 = .ok .mdAbort := by decide

theorem test_decode_units :
    decode 0b00000000000000000000000000010000 = .ok .scApply ∧ decode 0b00000000000000000000000000100000 = .ok .ivGen ∧
      decode 0b00000000000000000000000000110000 = .ok .kdfDerive := by decide

theorem test_decode_page :
    decode 0b00000000000000000000000001000000 = .ok .pgEncrypt ∧
      decode 0b00000000000000000000000001000001 = .ok .pgDecrypt := by decide

/-- R52: a zero low byte, an unassigned one, and reserved bits set in an otherwise legal word. -/
theorem test_decode_rejects :
    decode 0x00000000 = .error .opcodeNotAssigned ∧ decode 0x00000005 = .error .opcodeNotAssigned ∧
      decode 0x00000042 = .error .opcodeNotAssigned ∧ decode 0x000000ff = .error .opcodeNotAssigned ∧
      decode 0x00000141 = .error .reservedFieldNotZero ∧ decode 0x80000001 = .error .reservedFieldNotZero ∧
      decode 0x01000000 = .error .reservedFieldNotZero := by decide

theorem test_decodeTableWord :
    decodeTableWord 32 0x41 = some .pgDecrypt ∧ decodeTableWord 8 0x10 = some .scApply ∧
      decodeTableWord 32 0x141 = none ∧ decodeTableWord 8 0x141 = none := by decide

/-! ### Well-formedness: one ill-formed term for each check -/

theorem test_wf_commands : Instr.all.all Instr.wf = true := by decide

theorem test_wf_row_key : CipherRow.wf ⟨.enc, zeros 15, zeros 16, [1], 0, [2]⟩ = false := by decide

theorem test_wf_row_iv : CipherRow.wf ⟨.enc, zeros 16, zeros 17, [1], 0, [2]⟩ = false := by decide

theorem test_wf_row_output : CipherRow.wf ⟨.enc, zeros 16, zeros 16, [1], 0, [2, 3]⟩ = false := by decide

theorem test_wf_params_size : Params.wf { Config.defaultParams with bufSize := 2 ^ 32 + 1 } = false := by decide

theorem test_wf_params_rows :
    Params.wf { Config.defaultParams with bcRows := [⟨.enc, [], zeros 16, [1], 0, [2]⟩] } = false := by decide

theorem test_wf_access_offset :
    HostAccess.wf 64 (.writeReg 2 0) = false ∧ HostAccess.wf 64 (.readReg 5) = false ∧
      HostAccess.wf 64 (.partialReg 4 1) = false := by decide

theorem test_wf_access_buf :
    HostAccess.wf 64 (.writeBuf 63 [1, 2]) = false ∧ HostAccess.wf 64 (.readBuf 64 1) = false := by decide

theorem test_wf_accepts :
    Config.defaultParams.wf = true ∧ CipherRow.wf ⟨.dec, zeros 16, zeros 16, [1], 0, [2]⟩ = true ∧
      HostAccess.wf 64 (.writeReg 4 0) = true ∧ HostAccess.wf 64 (.readReg 0x24) = true ∧
      HostAccess.wf 64 (.writeBuf 62 [1, 2]) = true ∧ HostAccess.wf 64 (.readBuf 99 0) = true ∧
      HostAccess.wf 64 .reset = true := by decide

/-! ### A step runs the word placed for it -/

theorem test_fetch : step (State.reset.withFetchWord 32 1) = exec .mdInit State.reset := rfl

theorem test_fetch_short : step (State.reset.withFetchWord 8 4) = exec .mdAbort State.reset := rfl

/-- V8: an illegal word is refused with BAD_CMD. -/
theorem test_fetch_illegal : statusAfter (step (State.reset.withFetchWord 32 0x141)) = some 0x203 := by decide

/-! ### BUF and byte orders -/

theorem test_memory_form :
    bufWith [(5, [1, 2]), (3, [7]), (5, [0])] = [(3, 7), (6, 2)] ∧
      (bufWith [(5, [1, 2]), (3, [7]), (5, [0])]).wf = true := by decide

theorem test_byte_orders :
    le32 0x01020304 = [4, 3, 2, 1] ∧ le64 0x0102030405060708 = [8, 7, 6, 5, 4, 3, 2, 1] ∧
      fromLe32 [4, 3, 2, 1] = 0x01020304 := by decide

/-- R7: wrapping to s32. -/
theorem test_wrap : wrapS32 2147483648 = -2147483648 ∧ wrapS32 (-2147483649) = 2147483647 ∧ wrapS32 (-1) = -1 := by
  decide

/-- R37: the empty range is valid anywhere, and a range may end exactly at BUF_SIZE. -/
theorem test_rangeValid :
    rangeValid Config.defaultParams 0x3ff0 16 = true ∧ rangeValid Config.defaultParams 0x3ff1 16 = false ∧
      rangeValid Config.defaultParams 0xffffffff 0 = true := by decide

/-! ### Registers -/

/-- R16: CODE, CTXV and STICKY in the STATUS word (V2.49: 0x306). -/
theorem test_status_word :
    readOffset ((State.reset.setStatus ⟨.badAddr, true⟩).setCtx0 abcCtx) 4 = 0x306 := by decide

/-- R16: bit 9 clears STICKY, no other bit does (V9). -/
theorem test_status_write :
    Status.written ⟨.badSeq, true⟩ 0x200 = ⟨.badSeq, false⟩ ∧
      Status.written ⟨.badSeq, true⟩ 0xfffffdff = ⟨.badSeq, true⟩ := by decide

/-- R14, R15, R18: each operand register at its offset; CMD and reserved offsets read 0. -/
theorem test_register_offsets :
    ([0, 8, 12, 16, 20, 24, 28, 32, 36].map (readOffset (stateOf 1 2 3 4 5 6 []))) = [0, 1, 2, 3, 4, 5, 6, 0, 0] := by
  decide

/-! ### Digest engine -/

/-- Section 2.3 of the vectors: the working words after steps 0, 15, 16, 32 and 48 on the block of "abc". -/
theorem test_compress_trace :
    let x := blockWords (ctxTail abcCtx.ctx)
    mdSteps x mdInitWords 1 = ⟨0x10325476, 0xd6d117b4, 0xefcdab89, 0x98badcfe⟩ ∧
      mdSteps x mdInitWords 16 = ⟨0xdda9b9a6, 0x72aff2e0, 0xe396856b, 0xa1051895⟩ ∧
      mdSteps x mdInitWords 17 = ⟨0xa1051895, 0x3e9e9126, 0x72aff2e0, 0xe396856b⟩ ∧
      mdSteps x mdInitWords 33 = ⟨0x9f47e4f8, 0xb3707ebf, 0x726342d3, 0xa62884aa⟩ ∧
      mdSteps x mdInitWords 49 = ⟨0x99d9679d, 0x7b201df8, 0x7beb9700, 0x8fae6399⟩ := by decide +kernel

/-- V2.3. -/
theorem test_md_abc : hexValue (md [0x61, 0x62, 0x63]) = 0x900150983cd24fb0d6963f7d28e17f72 := by decide +kernel

/-- V2.9: 56 bytes, so two blocks of padding. -/
theorem test_md_two_blocks : hexValue (md (List.replicate 56 0x41)) = 0xa2f3e2024931bd470555002aa5ccc010 := by
  decide +kernel

/-- V2.23, V2.24: the tail of 55 and of 56 pending bytes. -/
theorem test_tail_lengths :
    (ctxTail ⟨mdInitWords, 440, List.replicate 55 0⟩).length = 64 ∧
      (ctxTail ⟨mdInitWords, 448, List.replicate 56 0⟩).length = 128 ∧
      (ctxTail ⟨mdInitWords, 448, List.replicate 56 0⟩).drop 120 = [0xc0, 1, 0, 0, 0, 0, 0, 0] := by decide +kernel

/-- V2.45. -/
theorem test_mdInit :
    ctxAfter (exec .mdInit State.reset) =
      some ⟨⟨⟨0x67452301, 0xefcdab89, 0x98badcfe, 0x10325476⟩, 0, []⟩, true⟩ ∧
      statusAfter (exec .mdInit State.reset) = some 0x100 := by decide

/-- V2.54: three bytes pending, 61 more: one compression of 00 01 .. 3f. -/
theorem test_mdUpdate_block :
    ctxAfter (exec .mdUpdate ((stateOf 0x143 61 0 0 0 0 (bufWith [(0x140, (List.range 64).map (BitVec.ofNat 8))])).setCtx0
      ⟨⟨mdInitWords, 24, [0, 1, 2]⟩, true⟩)) =
      some ⟨⟨⟨0x9144d9ca, 0xd901e4c9, 0x72fc5b38, 0x625ff51e⟩, 512, []⟩, true⟩ := by decide +kernel

/-- V2.42: no context. -/
theorem test_mdUpdate_badSeq : statusAfter (exec .mdUpdate (stateOf 0xfffffff0 0x100 0 0 0 0 [])) = some 0x204 := by
  decide

/-- V2.50: the digest of "abc" at DST, CTX0 wiped. -/
theorem test_mdFinal :
    let o := exec .mdFinal ((stateOf 0 0 0x200 0 0 0 []).setCtx0 abcCtx)
    bufAfter o 0x200 16 = some 0x900150983cd24fb0d6963f7d28e17f72 ∧ ctxAfter o = some Ctx0.wiped ∧
      statusAfter o = some 0 := by decide +kernel

/-- V2.49: the range ends past BUF_SIZE: refused, the context stays open. -/
theorem test_mdFinal_badAddr :
    let o := exec .mdFinal ((stateOf 0 0 0x3ff8 0 0 0 []).setCtx0 abcCtx)
    statusAfter o = some 0x306 ∧ ctxAfter o = some abcCtx := by decide

/-- V2.58, V2.59. -/
theorem test_mdAbort :
    ctxAfter (exec .mdAbort (State.reset.setCtx0 abcCtx)) = some Ctx0.wiped ∧
      statusAfter (exec .mdAbort State.reset) = some 0 := by decide

/-! ### Stream cipher -/

/-- Section 3.2 of the vectors: key 4b 65 79, the index j and the swapped entries after steps 0 to 3. -/
theorem test_ksa_trace :
    (ksaSteps [0x4b, 0x65, 0x79] 1).j = 75 ∧ (ksaSteps [0x4b, 0x65, 0x79] 4).j = 122 ∧
      (ksaSteps [0x4b, 0x65, 0x79] 4).p.take 4 = [75, 177, 44, 122] ∧
      (ksaSteps [0x4b, 0x65, 0x79] 4).p.at 177 = 1 := by decide +kernel

/-- V3.21: the state of section 3.3. -/
def keyAndPlaintext : Memory := bufWith [(0x10, [0x4b, 0x65, 0x79]), (0x20, hexBytes 9 0x506c61696e74657874)]

theorem test_scApply :
    let o := exec .scApply (stateOf 0x20 9 0x40 0x10 3 0 keyAndPlaintext)
    bufAfter o 0x40 9 = some 0xbbf316e8d940af0ad3 ∧ bufAfter o 0x20 9 = some 0x506c61696e74657874 := by decide +kernel

/-- V3.23, V3.25, V3.26, V3.28, V3.29. -/
theorem test_scApply_refusals :
    ([stateOf 0x20 9 0x24 0x10 3 0 [], stateOf 0x20 9 0x40 0x10 0 0 [], stateOf 0x20 9 0x40 0x10 257 0 [],
      stateOf 0x20 0 0x40 0x3fff 3 0 [], stateOf 0x20 9 0x3ff8 0x10 3 0 []].map fun s => statusAfter (exec .scApply s)) =
      [some 0x206, some 0x205, some 0x205, some 0x206, some 0x206] := by decide

/-! ### IV generator -/

/-- V4.14, V4.12, V4.10: a negative state, and the initial addition that wraps. -/
theorem test_scratchKey :
    hexValue (scratchKey (-52775)) = 0xcf0e00004cdf310983d7640bd2052e19 ∧
      hexValue (scratchKey (-2)) = 0x1360ff7f77e64d1db080a002eb736a10 ∧
      hexValue (scratchKey 2147483647) = 0xb363657f3061c5000d301d0ebadd8a77 := by decide +kernel

/-- V4.2 at the command level, and the range check of section 4. -/
theorem test_ivGen :
    bufAfter (exec .ivGen (stateOf 0 0 0x300 0 0 1 [])) 0x300 16 = some 0x20d7420f9c37a35dca6fe92a1c6999a9 ∧
      statusAfter (exec .ivGen (stateOf 0 0 0x3ff1 0 0 1 [])) = some 0x206 := by decide +kernel

/-! ### Key derivation -/

/-- V5.2, V5.5, V5.6. -/
theorem test_padPw :
    hexValue (padPw Config.defaultParams (hexBytes 6 0x736563726574)) =
        0x73656372657428bf4e5e4e758a4164004e56fffa01082e2e00b6d0683e802f0c ∧
      hexValue (padPw Config.defaultParams ((List.range 40).map fun i => BitVec.ofNat 8 (0x30 + i))) =
        0x303132333435363738393a3b3c3d3e3f404142434445464748494a4b4c4d4e4f ∧
      hexValue (padPw Config.defaultParams (List.replicate 31 0x78)) =
        0x7878787878787878787878787878787878787878787878787878787878787828 := by decide +kernel

/-- V5.33, V5.36. -/
theorem test_kdfDerive_refusals :
    statusAfter (exec .kdfDerive (stateOf 0x3ff0 40 0x520 0 0 0 [])) = some 0x206 ∧
      statusAfter (exec .kdfDerive (stateOf 0x400 6 0x3ff8 0 0 0 [])) = some 0x206 := by decide

/-- V5.32: a length of 0xFFFFFFFF is accepted, only 32 bytes being checked. -/
theorem test_kdfDerive_runs :
    exec .kdfDerive (stateOf 0x400 0xffffffff 0x510 0 0 0 []) =
      .next (kdfDeriveEffect (stateOf 0x400 0xffffffff 0x510 0 0 0 [])) :=
  exec_of_pass (i := .kdfDerive) (by decide)

/-! ### Page orchestrator -/

/-- K of the vectors, KDF("secret"). -/
def baseKey : Bytes := hexBytes 16 0xb27f716596e06154c79b6e9bff6c6995

/-- V6.7: page number 0xFFFFFFFF: the key takes the pattern, the IV seed is -1. -/
theorem test_page_key_and_iv :
    hexValue (pageKey Config.defaultParams baseKey 0xffffffff) = 0x3486410c5125e54b447e2db61621944f ∧
      hexValue (pageIv 0xffffffff) = 0x4ae71336e44bf9bf79d2752e234818a5 := by decide +kernel

/-- V6.31 to V6.42. -/
theorem test_newScheme :
    ([0x1000010100402020, 0x0200000000402020, 0x0001ffffff402020, 0x0100010100402020, 0x0002010100402020,
      0x1800010100402020, 0x1001010100402020, 0x0000010100402020, 0x1000010100412020, 0x1000010100402120,
      0x1000010100402000, 0x53514c6974652066].map fun h => newScheme (hexBytes 8 h)) =
      [true, true, true, false, false, false, false, false, false, false, false, false] := by decide +kernel

/-- 00 01 .. 1f. -/
def plainPage : Bytes := (List.range 32).map (BitVec.ofNat 8)

/-- XCBC16's answer of V6.11; key and IV are those of V6.2. -/
def rowPage2 : CipherRow where
  direction := .enc
  key := hexBytes 16 0xd2a0d472c439924eb2a445448943c071
  iv := hexBytes 16 0xb2547aac5270eef583e1d267a725d988
  input := plainPage
  ret := 32
  output := hexBytes 32 0x60f5acdd924c7abc394c9d28226b17f6a2446abc4260fee593f1c277b735c998

/-- V6.11. -/
theorem test_pgEncrypt :
    let o := exec .pgEncrypt (pageState [rowPage2] 0x1000 32 0x500 2 (bufWith [(0x500, baseKey), (0x1000, plainPage)]))
    bufAfter o 0x1000 32 = some 0x60f5acdd924c7abc394c9d28226b17f6a2446abc4260fee593f1c277b735c998 ∧
      statusAfter o = some 0 := by decide +kernel

/-- V6.16, V6.17, V6.18. -/
theorem test_pgEncrypt_refusals :
    ([pageState [] 0x1000 0x10000000 0x500 2 [], pageState [] 0x1000 0x0fffffff 0x500 2 [],
      pageState [] 0x1000 32 0x3ff8 2 []].map fun s => statusAfter (exec .pgEncrypt s)) =
      [some 0x205, some 0x206, some 0x206] := by decide

/-- D of section 6.4: a new-scheme page 1. -/
def diskPage : Bytes :=
  hexBytes 32 0xaaaaaaaaaaaaaaaa5488a38284ecdd6d1000010100402020410430a48688b210 ++
  hexBytes 32 0x10f6612db852a55afa5fd91a2c59a9994498b39294fccd7d511420b49698a200

/-- C of section 6.4. -/
def cipherPage : Bytes :=
  hexBytes 16 0x5488a38284ecdd6d410430a48688b210 ++
  hexBytes 32 0x10f6612db852a55afa5fd91a2c59a9994498b39294fccd7d511420b49698a200

/-- The tail of Pt of section 6.4, from byte 16 on. -/
def restoredTail : Bytes :=
  hexBytes 16 0x100001010040202018191a1b1c1d1e1f ++
  hexBytes 32 0x202122232425262728292a2b2c2d2e2f303132333435363738393a3b3c3d3e3f

/-- An answer of the block cipher for page 1; key and IV are those of V6.1. -/
def rowPage1 (ret : Word) (output : Bytes) : CipherRow where
  direction := .dec
  key := hexBytes 16 0x645fe08c189b5e109372c39586fc35a6
  iv := hexBytes 16 0x20d7420f9c37a35dca6fe92a1c6999a9
  input := cipherPage
  ret := ret
  output := output

/-- D at 0x2000 and K at 0x500. -/
def page1State (row : CipherRow) : State :=
  pageState [row] 0x2000 64 0x500 1 (bufWith [(0x500, baseKey), (0x2000, diskPage)])

/-- V6.51: relocated, decrypted from byte 16, verified, SIG restored. -/
theorem test_pgDecrypt :
    let o := exec .pgDecrypt (page1State (rowPage1 48 restoredTail))
    bufAfter o 0x2000 32 = some 0x53514c69746520666f726d6174203300100001010040202018191a1b1c1d1e1f ∧
      bufAfter o 0x2020 32 = some 0x202122232425262728292a2b2c2d2e2f303132333435363738393a3b3c3d3e3f ∧
      statusAfter o = some 0 := by decide +kernel

/-- Section 6.5: a failing cipher's output is written, bytes 0..15 stay, the code is CIPHER_FAIL. -/
theorem test_pgDecrypt_cipherFail :
    let o := exec .pgDecrypt (page1State (rowPage1 (-7) (List.replicate 48 0x5a)))
    bufAfter o 0x2000 20 = some 0xaaaaaaaaaaaaaaaa5488a38284ecdd6d5a5a5a5a ∧ statusAfter o = some 0x201 := by
  decide +kernel

/-! ### Witnesses: states and operands that meet the hypotheses of each statement, clause by clause -/

/-- The outcome is a next state with the property. -/
def answers (o : Outcome) (p : State → Bool) : Bool :=
  match o with
  | .next t => p t
  | .fault _ | .refused _ => false

theorem exists_of_answers {o : Outcome} {p : State → Bool} (h : answers o p = true) :
    ∃ t, o = .next t ∧ p t = true := by
  cases o with
  | next t => exact ⟨t, rfl, h⟩
  | fault r => cases h
  | refused r => cases h

/-- A run of the host's interface that ends with the property is a run as the statements say it. -/
theorem exists_run {n : Nat} {s : State} {p : State → Bool}
    (h : answers (Host.Core.run Sys2Proof.core n s) p = true) : ∃ t, RunsTo n s t ∧ p t = true := by
  obtain ⟨t, ht, hp⟩ := exists_of_answers h
  exact ⟨t, runsTo_iff_run.2 ht, hp⟩

/-- A state of BUF_SIZE 64 with the given registers, an open context with "abc" pending, and a key of 16 bytes at 48. -/
def small (src len dst key klen param : Word) : State :=
  ((State.resetWith { Config.defaultParams with bufSize := 64 } (bufWith [(0, [1, 2, 3]), (48, List.replicate 16 9)])).setRegs
    ⟨src, len, dst, key, klen, param⟩).setCtx0 abcCtx

theorem test_witness_reset : (State.reset.loaded [.reset, .readReg 4]).host.pending = .reset :: [.readReg 4] := rfl

theorem test_witness_invariant :
    (((small 0 3 48 48 16 2).loaded [.writeReg 0 (encode .mdFinal)]).Inv) ∧
      ∃ t, step ((small 0 3 48 48 16 2).loaded [.writeReg 0 (encode .mdFinal)]) = .next t :=
  ⟨⟨by decide, by decide, by decide, by decide, by decide⟩,
    (exists_of_answers (p := fun _ => true) (by decide +kernel)).imp fun _ h => h.1⟩

theorem test_witness_safe_run :
    ((small 0 3 48 48 16 2).loaded ([.readBuf 63 1, .readReg 0x20, .reset] ++ Asm.erase 0 64)).pendingWf = true := by decide

theorem test_witness_status_write :
    (State.reset.loaded [.writeReg 4 0x200]).host.pending = .writeReg 4 0x200 :: [] := rfl

theorem test_witness_status_cleared :
    ∃ t, step (((small 0 3 48 48 16 2).setStatus ⟨.badLen, true⟩).loaded [.writeReg 4 0x200]) = .next t ∧
      !t.status.sticky = true := exists_of_answers (by decide)

theorem test_witness_code_changes :
    ∃ t, step (State.reset.loaded [.writeReg 0 2]) = .next t ∧ (t.status.code != State.reset.status.code) = true :=
  exists_of_answers (by decide)

theorem test_witness_register_reads :
    ∀ o ∈ [0, 4, 8, 12, 16, 20, 24, 28, 32, 0x1000],
      o % 4 = 0 ∧ ((small 0 3 48 48 16 2).loaded [.readReg o]).host.pending = .readReg o :: [] := by decide

theorem test_witness_register_write :
    ∀ o ∈ [8, 12, 16, 20, 24, 28],
      ((small 0 3 48 48 16 2).loaded [.writeReg o 0xffffffff]).host.pending = .writeReg o 0xffffffff :: [] := by decide

theorem test_witness_reserved_offset :
    (State.reset.loaded [.writeReg 0x20 5]).host.pending = .writeReg 0x20 5 :: [] ∧
      (State.reset.loaded [.readReg 0x20]).host.pending = .readReg 0x20 :: [] := by decide

theorem test_witness_misshapen :
    (6 : Nat) % 4 ≠ 0 ∧ (State.reset.loaded [.writeReg 6 5]).host.pending = .writeReg 6 5 :: [] ∧
      (State.reset.loaded [.readReg 6]).host.pending = .readReg 6 :: [] ∧
      (State.reset.loaded [.partialReg 4 2]).host.pending = .partialReg 4 2 :: [] := by decide

theorem test_witness_host_buffer :
    let s := (small 0 3 48 48 16 2).loaded [.writeBuf 62 [5, 0], .readBuf 62 2]
    s.buf.wf = true ∧ RangeOk s (62, 2) ∧ s.host.pending = .writeBuf 62 [5, 0] :: .readBuf 62 2 :: [] ∧
      ¬ RangeOk s (63, 2) ∧ ¬ RangeOk s (64, 1) := by decide

theorem test_witness_idle : State.reset.host.pending = [] := rfl

theorem test_witness_one_access :
    ∃ t, step ((small 0 3 48 48 16 2).loaded [.readBuf 0 3, .reset]) = .next t ∧ true = true :=
  exists_of_answers (p := fun _ => true) (by decide)

theorem test_witness_cmd_write :
    (State.reset.loaded [.writeReg 0 0x41]).host.pending = .writeReg 0 0x41 :: [] ∧ decode 0x41 = .ok .pgDecrypt := by
  decide

theorem test_witness_reserved_words :
    (0x100 : Word).extractLsb' 8 24 ≠ 0#24 ∧ (0x42 : Word).extractLsb' 8 24 = 0#24 ∧
      (0x42 : Word).extractLsb' 0 8 ∉ ([0x01, 0x02, 0x03, 0x04, 0x10, 0x20, 0x30, 0x40, 0x41] : List Byte) ∧
      (State.reset.loaded [.writeReg 0 0x100]).host.pending = .writeReg 0 0x100 :: [] ∧
      (State.reset.loaded [.writeReg 0 0x42]).host.pending = .writeReg 0 0x42 :: [] := by decide

/-- A command that ends OK: the premise of the statements about every command. -/
theorem test_witness_exec_ok : ∃ t, exec .mdUpdate (small 0 3 48 48 16 2) = .next t ∧ (t.status.code == .ok) = true :=
  exists_of_answers (by decide)

/-- A refused command. -/
theorem test_witness_exec_refused :
    ∃ t, exec .mdUpdate (small 63 3 48 48 16 2) = .next t ∧ (t.status.code == .badAddr && t.status.code.isRefusal) = true :=
  exists_of_answers (by decide)

theorem test_witness_blank_operand :
    readsOperand .mdUpdate .dst = false ∧ ∃ t, exec .mdUpdate (small 0 3 48 48 16 2) = .next t ∧ true = true :=
  ⟨rfl, exists_of_answers (p := fun _ => true) (by decide)⟩

theorem test_witness_other_unit :
    isDigestCommand .ivGen = false ∧ ∃ t, exec .ivGen (small 0 3 48 48 16 2) = .next t ∧ true = true :=
  ⟨rfl, exists_of_answers (p := fun _ => true) (by decide)⟩

theorem test_witness_context_not_readable :
    HostAccess.writeReg 0 (encode .mdUpdate) ≠ .writeReg 0 (encode .mdFinal) ∧
      (∃ t, step ((small 0 3 48 48 16 2).loaded [.writeReg 0 (encode .mdUpdate)]) = .next t ∧ true = true) ∧
      ∃ t, exec .mdFinal (small 0 3 48 48 16 2) = .next t ∧ (t.status.code == .ok) = true :=
  ⟨by decide, exists_of_answers (p := fun _ => true) (by decide), exists_of_answers (by decide +kernel)⟩

theorem test_witness_badSeq :
    ∃ t, exec .mdFinal ((small 0 3 48 48 16 2).setCtx0 Ctx0.wiped) = .next t ∧ (t.status.code == .badSeq) = true :=
  exists_of_answers (by decide)

/-- One operand for each line of R145: KLEN 0 and 257, LEN 2^28, page 1 with LEN 23. -/
theorem test_witness_badLen :
    (∀ s ∈ [small 0 3 8 48 0 2, small 0 3 8 48 257 2], ∃ t, exec .scApply s = .next t ∧ (t.status.code == .badLen) = true) ∧
      (∃ t, exec .pgEncrypt (small 0 0x10000000 8 48 16 2) = .next t ∧ (t.status.code == .badLen) = true) ∧
      (∃ t, exec .pgDecrypt (small 0 0x10000000 8 48 16 2) = .next t ∧ (t.status.code == .badLen) = true) ∧
      ∃ t, exec .pgDecrypt (small 0 23 8 48 16 1) = .next t ∧ (t.status.code == .badLen) = true := by
  refine ⟨?_, exists_of_answers (by decide), exists_of_answers (by decide), exists_of_answers (by decide)⟩
  rintro s (_ | ⟨_, _ | ⟨_, _ | _⟩⟩) <;> exact exists_of_answers (by decide)

/-- A range one byte too long, and a partial overlap. -/
theorem test_witness_badAddr :
    (∃ t, exec .ivGen (small 0 3 49 48 16 2) = .next t ∧ (t.status.code == .badAddr) = true) ∧
      ∃ t, exec .scApply (small 0 3 2 48 16 2) = .next t ∧ (t.status.code == .badAddr) = true :=
  ⟨exists_of_answers (by decide), exists_of_answers (by decide)⟩

theorem test_witness_mdUpdate :
    (small 0 3 48 48 16 2).ctx0.valid = true ∧ RangeOk (small 61 3 48 48 16 2) (61, 3) ∧
      (small 0 60 48 48 16 2).ctx0.ctx.pend.length + 60 < 64 ∧ (small 0 0 48 48 16 2).regs.len = 0 ∧
      ((small 0 3 48 48 16 2).setCtx0 Ctx0.wiped).ctx0.valid = false ∧ ¬ RangeOk (small 62 3 48 48 16 2) (62, 3) := by
  decide

theorem test_witness_mdFinal :
    (small 0 3 48 48 16 2).buf.wf = true ∧ (small 0 3 48 48 16 2).ctx0.valid = true ∧
      RangeOk (small 0 3 48 48 16 2) (48, 16) ∧ ((small 0 3 48 48 16 2).setCtx0 Ctx0.wiped).ctx0.valid = false ∧
      ¬ RangeOk (small 0 3 49 48 16 2) (49, 16) := by decide

theorem test_witness_padding :
    ([0, 55, 56, 63].map fun n => (DigestCtx.mk mdInitWords 0 (List.replicate n 1)).pend.length) = [0, 55, 56, 63] := by
  decide

/-- Between MD_INIT and MD_FINAL: operands, two MD_UPDATEs of which one is refused, a command of another unit, a
register read, and a write of DST. -/
def interleaved : List HostAccess :=
  Asm.mdUpdate 0 3 ++ Asm.mdUpdate 63 3 ++ [.readReg 4, .writeReg 0x10 16, .writeReg 0 (encode .ivGen)]

theorem test_witness_command_sequence :
    let s := (small 0 0 0 48 16 2).loaded
      (.writeReg 0 (encode .mdInit) :: (interleaved ++ .writeReg 0 (encode .mdFinal) :: [.readBuf 16 16]))
    s.buf.wf = true ∧ interleaved.all mayInterleave = true ∧ (∃ s1, step s = .next s1 ∧ true = true) ∧
      ∃ t, RunsTo (interleaved.length + 2) s t ∧ (t.status.code == .ok) = true :=
  ⟨by decide, by decide, exists_of_answers (p := fun _ => true) (by decide), exists_run (by decide +kernel)⟩

theorem test_witness_md_digest :
    (small 0 3 48 48 16 2).buf.wf = true ∧ RangeOk (small 0 3 48 48 16 2) (61, 3) ∧
      RangeOk (small 0 3 48 48 16 2) (48, 16) := by decide

/-- KLEN at its least and greatest value, the overlap rule's four forms, and the two bad lengths. -/
theorem test_witness_scApply :
    let p := { Config.defaultParams with bufSize := 300 }
    let s := (State.resetWith p []).setRegs ⟨0, 4, 4, 44, 256, 0⟩
    let r := (State.resetWith p []).setRegs ⟨8, 4, 4, 44, 1, 0⟩
    s.buf.wf = true ∧ 1 ≤ r.regs.klen.toNat ∧ s.regs.klen.toNat ≤ 256 ∧ RangeOk s (44, 256) ∧ RangeOk s (0, 4) ∧
      RangeOk s (4, 4) ∧ s.regs.src.toNat + s.regs.len.toNat ≤ s.regs.dst.toNat ∧
      r.regs.dst.toNat + r.regs.len.toNat ≤ r.regs.src.toNat ∧ (small 0 0 1 48 16 0).regs.len = 0 ∧
      (small 1 9 1 48 16 0).regs.src = (small 1 9 1 48 16 0).regs.dst ∧ (small 0 3 8 48 0 2).regs.klen.toNat = 0 ∧
      256 < (small 0 3 8 48 257 2).regs.klen.toNat := by decide

/-- Each way SC_APPLY is refused with BAD_ADDR: a range one byte too long, and an overlap of one byte. -/
theorem test_witness_scApply_badAddr :
    ¬ RangeOk (small 0 3 8 49 16 0) (49, 16) ∧ ¬ RangeOk (small 62 3 8 48 16 0) (62, 3) ∧
      ¬ RangeOk (small 0 3 62 48 16 0) (62, 3) ∧ (small 0 3 2 48 16 0).regs.src ≠ (small 0 3 2 48 16 0).regs.dst ∧
      (0 : Nat) < 2 + 3 ∧ (2 : Nat) < 0 + 3 := by decide

/-- The key just after the buffer, and just before it. -/
theorem test_witness_scApply_twice :
    let s := small 0 48 0 48 16 0
    let r := small 16 48 16 0 16 0
    s.buf.wf = true ∧ 1 ≤ s.regs.klen.toNat ∧ s.regs.klen.toNat ≤ 256 ∧ RangeOk s (48, 16) ∧ RangeOk s (0, 48) ∧
      s.regs.dst = s.regs.src ∧ s.regs.src.toNat + s.regs.len.toNat ≤ s.regs.key.toNat ∧
      RangeOk r (0, 16) ∧ RangeOk r (16, 48) ∧ r.regs.dst = r.regs.src ∧
      r.regs.key.toNat + r.regs.klen.toNat ≤ r.regs.src.toNat := by decide

theorem test_witness_s32_range :
    ∀ z ∈ [(-2147483648 : Int), -1, 0, 2147483647], -2 ^ 31 ≤ z ∧ z < 2 ^ 31 := by decide

theorem test_witness_ivGen :
    (small 0 0 48 0 0 0xFFFFFFFF).buf.wf = true ∧ RangeOk (small 0 0 48 0 0 0xFFFFFFFF) (48, 16) ∧
      (small 0 0 48 0 0 0xFFFFFFFF).regs.param = 0xFFFFFFFF ∧ ¬ RangeOk (small 0 0 49 0 0 0) (49, 16) := by decide

theorem test_witness_padded_password :
    (List.replicate 32 (7 : Byte)).length = 32 ∧ 32 ≤ (List.replicate 40 (7 : Byte)).length ∧
      (List.replicate 40 (7 : Byte)).take 32 = (List.replicate 33 (7 : Byte)).take 32 ∧
      32 ≤ (List.replicate 33 (7 : Byte)).length := by decide

theorem test_witness_kdfDerive :
    (small 32 0xFFFFFFFF 48 0 0 0).buf.wf = true ∧
      RangeOk (small 32 0xFFFFFFFF 48 0 0 0) (32, min (small 32 0xFFFFFFFF 48 0 0 0).regs.len.toNat 32) ∧
      RangeOk (small 32 0xFFFFFFFF 48 0 0 0) (48, 16) ∧
      ¬ RangeOk (small 33 0xFFFFFFFF 48 0 0 0) (33, min (small 33 0xFFFFFFFF 48 0 0 0).regs.len.toNat 32) ∧
      ¬ RangeOk (small 32 0xFFFFFFFF 49 0 0 0) (49, 16) := by decide

/-- BUF changed outside the 32 bytes that are read; the command runs. -/
theorem test_witness_kdfDerive_reads :
    (small 0 40 48 0 0 0).buf.wf = true ∧ ((small 0 40 48 0 0 0).buf.write 32 5).wf = true ∧
      (∀ k, k < min (small 0 40 48 0 0 0).regs.len.toNat 32 →
        ((small 0 40 48 0 0 0).buf.write 32 5).read ((small 0 40 48 0 0 0).regs.src.toNat + k) =
          (small 0 40 48 0 0 0).buf.read ((small 0 40 48 0 0 0).regs.src.toNat + k)) ∧
      ∃ t, exec .kdfDerive (small 0 40 48 0 0 0) = .next t :=
  ⟨by decide, by decide, by decide, _, exec_of_pass (i := .kdfDerive) (by decide)⟩

theorem test_witness_newScheme : (hexBytes 8 0x1000010100402020).length = 8 := by decide

/-- The boundary operands of PG_ENCRYPT, with an answer of the cipher that is not negative and one that is. -/
theorem test_witness_pgEncrypt :
    let s := pageState [rowPage2] 0x1000 32 0x500 2 (bufWith [(0x500, baseKey), (0x1000, plainPage)])
    let f := pageState [{ rowPage2 with ret := -1 }] 0x1000 32 0x500 2 (bufWith [(0x500, baseKey), (0x1000, plainPage)])
    s.buf.wf = true ∧ s.regs.len.toNat ≤ 2 ^ 28 - 1 ∧ RangeOk s (0x500, 16) ∧ RangeOk s (0x1000, 32) ∧
      0 ≤ (xform s.params .enc (memRead s 0x500 16) 2 (memRead s 0x1000 32)).ret.toInt ∧
      (xform f.params .enc (memRead f 0x500 16) 2 (memRead f 0x1000 32)).ret.toInt < 0 ∧
      2 ^ 28 - 1 < (small 0 0x10000000 0 0 0 0).regs.len.toNat ∧ ¬ RangeOk (small 0 0 0 49 0 0) (49, 16) ∧
      (small 0 0x0fffffff 0 48 0 0).regs.len.toNat ≤ 2 ^ 28 - 1 ∧ ¬ RangeOk (small 0 0x0fffffff 0 48 0 0) (0, 0x0fffffff) := by
  decide +kernel

/-- A page other than 1, and page 1 of 24 bytes without the new scheme. -/
theorem test_witness_pgDecrypt_plain :
    (small 0 23 0 48 0 2).regs.param ≠ 1 ∧ (small 0 24 0 48 0 1).regs.param = 1 ∧
      24 ≤ (small 0 24 0 48 0 1).regs.len.toNat ∧
      newScheme (headerField (small 0 24 0 48 0 1).params (memRead (small 0 24 0 48 0 1) 0 24)) = false ∧
      (small 0 24 0 48 0 1).buf.wf = true ∧ RangeOk (small 0 24 0 48 0 1) (48, 16) ∧
      RangeOk (small 0 24 0 48 0 1) (0, 24) := by decide +kernel

/-- A new-scheme page 1 with each of the three outcomes: verified, not verified, failed. -/
theorem test_witness_pgDecrypt_newScheme :
    let ans := fun row : CipherRow => xform (page1State row).params .dec (memRead (page1State row) 0x500 16) 1
      (memRead (page1State row) 0x2008 8 ++ memRead (page1State row) 0x2018 40)
    let s := page1State (rowPage1 48 restoredTail)
    s.buf.wf = true ∧ s.regs.len.toNat ≤ 2 ^ 28 - 1 ∧ RangeOk s (0x500, 16) ∧ RangeOk s (0x2000, 64) ∧ s.regs.param = 1 ∧
      24 ≤ s.regs.len.toNat ∧ newScheme (headerField s.params (memRead s 0x2000 64)) = true ∧
      0 ≤ (ans (rowPage1 48 restoredTail)).ret.toInt ∧
      (ans (rowPage1 48 restoredTail)).output.take 8 = memRead s 0x2010 8 ∧
      0 ≤ (ans (rowPage1 48 (zeros 48))).ret.toInt ∧ (ans (rowPage1 48 (zeros 48))).output.take 8 ≠ memRead s 0x2010 8 ∧
      (ans (rowPage1 (-7) (zeros 48))).ret.toInt < 0 := by decide +kernel

/-- PG_DECRYPT ends with HDR_MISMATCH, which is no refusal. -/
theorem test_witness_hdrMismatch :
    ∃ t, exec .pgDecrypt (page1State (rowPage1 48 (zeros 48))) = .next t ∧
      (t.status.code == .hdrMismatch && !t.status.code.isRefusal) = true := exists_of_answers (by decide +kernel)

theorem test_witness_pgDecrypt_checks :
    2 ^ 28 - 1 < (small 0 0x10000000 0 48 0 2).regs.len.toNat ∧ (small 0 23 0 48 0 1).regs.param = 1 ∧
      (small 0 23 0 48 0 1).regs.len.toNat < 24 ∧ ¬ RangeOk (small 0 23 0 49 0 2) (49, 16) ∧
      ¬ RangeOk (small 41 24 0 48 0 1) (41, 24) := by decide

/-- The block cipher inverts itself on this page: V6.11 and V6.12. -/
theorem test_witness_page_round_trip :
    let back := { rowPage2 with direction := .dec, input := rowPage2.output, output := plainPage }
    let s := pageState [rowPage2, back] 0x1000 32 0x500 2 (bufWith [(0x500, baseKey), (0x1000, plainPage)])
    let key := pageKey s.params (memRead s 0x500 16) s.regs.param
    let enc := blockCipher s.params .enc key (pageIv s.regs.param) (memRead s 0x1000 32)
    let dec := blockCipher s.params .dec key (pageIv s.regs.param) enc.output
    s.buf.wf = true ∧ s.regs.len.toNat ≤ 2 ^ 28 - 1 ∧ RangeOk s (0x500, 16) ∧ RangeOk s (0x1000, 32) ∧
      s.regs.key.toNat + 16 ≤ s.regs.src.toNat ∧ 0 ≤ enc.ret.toInt ∧ 0 ≤ dec.ret.toInt ∧
      dec.output = memRead s 0x1000 32 ∧ s.regs.param ≠ 1 := by decide +kernel

/-- The same on page 1: section 6.6, whose ciphertext E does not show the new scheme. -/
theorem test_witness_page_round_trip_page1 :
    let plain := hexBytes 16 0x53514c69746520666f726d6174203300 ++ restoredTail
    let cipher := hexBytes 32 0x17d9eeeaf0c9dd2b366f47deeeb59f0f63860f67e812a31bbd049e507454b4b6 ++
      hexBytes 32 0x27f8cdc8d4acdb2c065f77eede85af3f73961f77f802b30bad148e406444a4a6
    let row := { rowPage1 64 cipher with direction := .enc, input := plain }
    let back := { rowPage1 64 plain with input := cipher }
    let s := pageState [row, back] 0x2000 64 0x500 1 (bufWith [(0x500, baseKey), (0x2000, plain)])
    let key := pageKey s.params (memRead s 0x500 16) s.regs.param
    let enc := blockCipher s.params .enc key (pageIv s.regs.param) (memRead s 0x2000 64)
    let dec := blockCipher s.params .dec key (pageIv s.regs.param) enc.output
    s.buf.wf = true ∧ s.regs.len.toNat ≤ 2 ^ 28 - 1 ∧ RangeOk s (0x500, 16) ∧ RangeOk s (0x2000, 64) ∧
      s.regs.key.toNat + 16 ≤ s.regs.src.toNat ∧ 0 ≤ enc.ret.toInt ∧ 0 ≤ dec.ret.toInt ∧
      dec.output = memRead s 0x2000 64 ∧ s.regs.param = 1 ∧ 24 ≤ s.regs.len.toNat ∧
      newScheme (headerField s.params enc.output) = false := by decide +kernel

end Sys2Proof.Tests
end

/-! ### Every command ends in a next state, and every well-formed host access has a move -/

section
namespace Sys2Proof.Machine

/-! #### Commands -/

/-- A command has no outcome but a next state: none faults or is refused a meaning (R12). -/
theorem exists_exec_eq_next (i : Instr) (s : State) : ∃ t, exec i s = .next t := by
  cases h : firstFailure (checksOf i s) with
  | none => exact ⟨_, exec_of_pass h⟩
  | some c => exact ⟨_, exec_of_fail h⟩

/-- Every word written to CMD has a next state, whether it decodes or not. -/
theorem exists_startCommand_eq_next (w : Word) (s : State) : ∃ t, startCommand w s = .next t := by
  unfold startCommand
  cases decode w with
  | ok i => exact exists_exec_eq_next i s
  | error e => exact ⟨_, rfl⟩

/-- The code a command's checks fail with stands in its row of the table of R140. -/
theorem producesCode_of_firstFailure {i : Instr} {s : State} {c : Code} (h : firstFailure (checksOf i s) = some c) :
    producesCode i c = true := by
  have hall : ∀ x ∈ checksOf i s, producesCode i x.2 = true := by cases i <;> simp [checksOf, producesCode]
  exact hall _ (firstFailure_mem h)

/-- PG_ENCRYPT's own outcome stands in its row of the table of R140. -/
theorem producesCode_encryptPage (p : Params) (base : Bytes) (page : Word) (pg : Bytes) :
    producesCode .pgEncrypt (encryptPage p base page pg).1 = true := by
  simp only [encryptPage]
  split <;> rfl

/-- PG_DECRYPT may end with every code that is no refusal, which is all `decryptPage` answers. -/
theorem producesCode_decryptPage (p : Params) (base : Bytes) (page : Word) (pg : Bytes) :
    producesCode .pgDecrypt (decryptPage p base page pg).1 = true := by
  have h := decryptPage_code p base page pg
  cases hc : (decryptPage p base page pg).1 <;> simp_all [Code.isRefusal, producesCode]

/-- The code an effect ends with stands in the command's row of the table of R140. -/
theorem producesCode_effect (i : Instr) (s : State) : producesCode i (effectOf i s).status.code = true := by
  cases i
  case pgEncrypt => exact producesCode_encryptPage ..
  case pgDecrypt => exact producesCode_decryptPage ..
  all_goals rfl

/-- A command ends with one of the codes its row of the table of R140 names. -/
theorem producesCode_of_exec {i : Instr} {s t : State} (h : exec i s = .next t) :
    producesCode i t.status.code = true := by
  obtain ⟨c, hc, rfl⟩ | ⟨-, rfl⟩ := exec_cases h
  · exact producesCode_of_firstFailure hc
  · exact producesCode_effect i s

/-- Settles O17: a command is refused by its first failing check or has its effect, and both are next states with a
code of its row. -/
theorem everyCommandEndsInANextState : Obligations.EveryCommandEndsInANextState := by
  unfold Obligations.EveryCommandEndsInANextState
  refine ⟨fun i s => ?_, exists_startCommand_eq_next⟩
  obtain ⟨t, ht⟩ := exists_exec_eq_next i s
  exact ⟨t, ht, producesCode_of_exec ht⟩

/-! #### What commands and host accesses keep -/

/-- No command changes an operand register, a parameter or the host's side. -/
theorem kept_of_exec {i : Instr} {s t : State} (h : exec i s = .next t) : Kept s t := by
  obtain ⟨c, -, rfl⟩ | ⟨-, rfl⟩ := exec_cases h
  · exact ⟨rfl, rfl, rfl⟩
  · obtain ⟨hregs, hparams, hhost⟩ := effect_kept i s
    exact ⟨hregs, hparams, hhost⟩

/-- No word written to CMD changes an operand register, a parameter or the host's side. -/
theorem kept_of_startCommand {w : Word} {s t : State} (h : startCommand w s = .next t) : Kept s t := by
  obtain ⟨i, -, hi⟩ | ⟨e, -, rfl⟩ := startCommand_cases h
  · exact kept_of_exec hi
  · exact ⟨rfl, rfl, rfl⟩

/-- A word written in the register window changes no parameter and nothing of the host's side. -/
theorem writeOffset_params_host {offset : Nat} {v : Word} {s t : State} (h : writeOffset offset v s = .next t) :
    t.params = s.params ∧ t.host = s.host := by
  obtain ⟨-, hc⟩ | ⟨-, rfl⟩ | ⟨r, -, -, -, rfl⟩ | ⟨-, rfl⟩ := writeOffset_cases h
  · have hk := kept_of_startCommand hc
    exact ⟨hk.params, hk.host⟩
  all_goals exact ⟨rfl, rfl⟩

/-- Everything a host access can do: write or read a whole word in the register window, write or read bytes of BUF that
exist, or reset. -/
theorem hostAccess_cases {a : HostAccess} {s t : State} (h : hostAccess a s = .next t) :
    (∃ offset v, a = .writeReg offset v ∧ offset % 4 = 0 ∧ writeOffset offset v s = .next t) ∨
      (∃ offset, a = .readReg offset ∧ offset % 4 = 0 ∧ t = respond s (.word (readOffset s offset))) ∨
      (∃ addr data, a = .writeBuf addr data ∧ rangeValid s.params addr data.length = true ∧
        t = memWrite s addr data) ∨
      (∃ addr count, a = .readBuf addr count ∧ rangeValid s.params addr count = true ∧
        t = respond s (.bytes (memRead s addr count))) ∨
      (a = .reset ∧ t = resetMove s) := by
  unfold hostAccess at h
  cases a <;> simp only [Host.Outcome.next.injEq, reduceCtorEq] at h
  case writeReg offset v =>
    split at h
    case isTrue ho => exact .inl ⟨offset, v, rfl, ho, h⟩
    case isFalse => cases h
  case readReg offset =>
    split at h <;> cases h
    exact .inr (.inl ⟨offset, rfl, ‹_›, rfl⟩)
  case writeBuf addr data =>
    split at h <;> cases h
    exact .inr (.inr (.inl ⟨addr, data, rfl, ‹_›, rfl⟩))
  case readBuf addr count =>
    split at h <;> cases h
    exact .inr (.inr (.inr (.inl ⟨addr, count, rfl, ‹_›, rfl⟩)))
  case reset => exact .inr (.inr (.inr (.inr ⟨rfl, h.symm⟩)))

/-- A host access changes no parameter and none of the accesses still to come. -/
theorem hostAccess_params_pending {a : HostAccess} {s t : State} (h : hostAccess a s = .next t) :
    t.params = s.params ∧ t.host.pending = s.host.pending := by
  obtain ⟨offset, v, -, -, hw⟩ | ⟨_, -, -, rfl⟩ | ⟨_, _, -, -, rfl⟩ | ⟨_, _, -, -, rfl⟩ | ⟨-, rfl⟩ :=
    hostAccess_cases h
  · obtain ⟨hparams, hhost⟩ := writeOffset_params_host hw
    exact ⟨hparams, congrArg HostPort.pending hhost⟩
  all_goals exact ⟨rfl, rfl⟩

/-- A step keeps the parameters and takes the oldest pending access off the list, if there is one. -/
theorem step_params_pending {s t : State} (h : step s = .next t) :
    t.params = s.params ∧ t.host.pending = s.host.pending.tail := by
  obtain ⟨hp, rfl⟩ | ⟨a, rest, hp, ha⟩ := step_cases h
  · exact ⟨rfl, by rw [hp]; rfl⟩
  · rw [hp]
    exact hostAccess_params_pending ha

/-! #### When an access, a step and a run have a next state -/

/-- Every word written at a byte offset has a next state. -/
theorem exists_writeOffset_eq_next (offset : Nat) (v : Word) (s : State) : ∃ t, writeOffset offset v s = .next t := by
  unfold writeOffset
  cases RegName.ofOffset offset with
  | none => exact ⟨_, rfl⟩
  | some r =>
    cases r
    case cmd => exact exists_startCommand_eq_next v s
    all_goals exact ⟨_, rfl⟩

/-- A host write to BUF is well formed exactly when its range is valid (R37). -/
theorem wf_writeBuf (p : Params) (addr : Nat) (data : Bytes) :
    (HostAccess.writeBuf addr data).wf p.bufSize = rangeValid p addr data.length := rfl

/-- A host read of BUF is well formed exactly when its range is valid (R37). -/
theorem wf_readBuf (p : Params) (addr count : Nat) :
    (HostAccess.readBuf addr count).wf p.bufSize = rangeValid p addr count := rfl

/-- A host access has a next state exactly when the spec defines it (R24, R165). -/
theorem exists_hostAccess_eq_next_iff {a : HostAccess} {s : State} :
    (∃ t, hostAccess a s = .next t) ↔ a.wf s.params.bufSize = true := by
  cases a with
  | writeReg offset v =>
    by_cases ho : offset % 4 = 0
    · simpa [hostAccess, HostAccess.wf, ho] using exists_writeOffset_eq_next offset v s
    · simp [hostAccess, HostAccess.wf, ho]
  | readReg offset => by_cases ho : offset % 4 = 0 <;> simp [hostAccess, HostAccess.wf, ho]
  | partialReg offset bytes => simp [hostAccess, HostAccess.wf]
  | writeBuf addr data =>
    rw [wf_writeBuf]
    cases hr : rangeValid s.params addr data.length <;> simp [hostAccess, hr]
  | readBuf addr count =>
    rw [wf_readBuf]
    cases hr : rangeValid s.params addr count <;> simp [hostAccess, hr]
  | reset => simp [hostAccess, HostAccess.wf]

/-- A step has a next state exactly when no access is pending or the spec defines the oldest one. -/
theorem exists_step_eq_next_iff {s : State} :
    (∃ t, step s = .next t) ↔ ∀ a ∈ s.host.pending.head?, a.wf s.params.bufSize = true := by
  cases hp : s.host.pending with
  | nil => simp [step, hostStep, hp]
  | cons a rest => simpa [step_of_pending hp] using exists_hostAccess_eq_next_iff (s := s.accepting rest)

/-- A step keeps it that the spec defines every pending access. -/
theorem pendingWf_of_step {s t : State} (h : step s = .next t) (hs : s.pendingWf = true) : t.pendingWf = true := by
  obtain ⟨hparams, hpending⟩ := step_params_pending h
  simp only [State.pendingWf, List.all_eq_true, hparams, hpending] at hs ⊢
  exact fun a ha => hs a (List.mem_of_mem_tail ha)

/-- When the spec defines every pending access, the machine runs on for any number of steps. -/
theorem safeRun_of_pendingWf {n : Nat} {s : State} (hs : s.pendingWf = true) : SafeRun n s := by
  induction n generalizing s with
  | zero => exact ⟨s, rfl⟩
  | succ n ih =>
    have hhead : ∀ a ∈ s.host.pending.head?, a.wf s.params.bufSize = true :=
      fun a ha => List.all_eq_true.1 hs a (List.mem_of_mem_head? ha)
    obtain ⟨u, hu⟩ := exists_step_eq_next_iff.2 hhead
    obtain ⟨t, ht⟩ := ih (pendingWf_of_step hu hs)
    exact ⟨t, u, hu, ht⟩

/-- Settles O4: the step's outcome is that of the oldest access, and well-formedness of the pending accesses is kept
along a run. -/
theorem onlyUndefinedHostAccessesStop : Obligations.OnlyUndefinedHostAccessesStop := by
  unfold Obligations.OnlyUndefinedHostAccessesStop
  exact ⟨fun _ => exists_step_eq_next_iff, fun _ _ => safeRun_of_pendingWf⟩

end Sys2Proof.Machine
end

/-! ### Registers, reset, the invariant, and what the host can learn of CTX0 -/

section
namespace Sys2Proof.Machine

/-! #### The register window -/

/-- Each register has its own byte offset (R14). -/
theorem ofOffset_eq_some_iff {offset : Nat} {r : RegName} : RegName.ofOffset offset = some r ↔ offset = r.offset := by
  constructor
  · intro h
    unfold RegName.ofOffset at h
    split at h <;> cases h <;> rfl
  · rintro rfl
    cases r <;> rfl

/-- No register stands at 0x20 or above (R18). -/
theorem ofOffset_of_reserved {offset : Nat} (h : 0x20 ≤ offset) : RegName.ofOffset offset = none := by
  cases hr : RegName.ofOffset offset with
  | none => rfl
  | some r =>
    have ho := ofOffset_eq_some_iff.1 hr
    cases r <;> simp only [RegName.offset] at ho <;> omega

/-- A read at a register's offset answers the register. -/
theorem readOffset_of_some {s : State} {offset : Nat} {r : RegName} (h : RegName.ofOffset offset = some r) :
    readOffset s offset = readReg s r := by
  simp [readOffset, h]

/-- A read at a reserved offset answers 0 (R18). -/
theorem readOffset_of_none {s : State} {offset : Nat} (h : RegName.ofOffset offset = none) :
    readOffset s offset = 0 := by
  simp [readOffset, h]

/-- A word written at an operand register's offset is stored there (R17). -/
theorem writeOffset_of_operand {offset : Nat} {v : Word} {r : RegName} (s : State)
    (h : RegName.ofOffset offset = some r) (hc : r ≠ .cmd) (hs : r ≠ .status) :
    writeOffset offset v s = .next (s.setRegs (s.regs.write r v)) := by
  unfold writeOffset
  rw [h]
  cases r
  case cmd => exact absurd rfl hc
  case status => exact absurd rfl hs
  all_goals rfl

/-- A word written at a reserved offset is ignored (R18). -/
theorem writeOffset_of_none {offset : Nat} {v : Word} (s : State) (h : RegName.ofOffset offset = none) :
    writeOffset offset v s = .next s := by
  unfold writeOffset
  rw [h]

/-- An operand register reads as the value written to it (R17). -/
theorem readReg_write_same {s : State} {r : RegName} {v : Word} (hc : r ≠ .cmd) (hs : r ≠ .status) :
    readReg (s.setRegs (s.regs.write r v)) r = v := by
  cases r
  case cmd => exact absurd rfl hc
  case status => exact absurd rfl hs
  all_goals rfl

/-- A write to an operand register leaves every other register as it reads. -/
theorem readReg_write_other {s : State} {r r' : RegName} {v : Word} (hne : r' ≠ r) :
    readReg (s.setRegs (s.regs.write r v)) r' = readReg s r' := by
  cases r'
  case cmd => rfl
  case status => rfl
  all_goals cases r <;> simp_all [readReg, OperandRegs.write]

/-- A write to an operand register leaves what every other offset reads as (R17). -/
theorem readOffset_write_other {s : State} {r : RegName} {v : Word} {o : Nat} (hne : o ≠ r.offset) :
    readOffset (s.setRegs (s.regs.write r v)) o = readOffset s o := by
  cases ho : RegName.ofOffset o with
  | none => rw [readOffset_of_none ho, readOffset_of_none ho]
  | some r' =>
    have hr : r' ≠ r := fun h => hne (h ▸ ofOffset_eq_some_iff.1 ho)
    rw [readOffset_of_some ho, readOffset_of_some ho, readReg_write_other hr]

/-- The six operand offsets are those of the registers other than CMD and STATUS. -/
theorem exists_operand_of_mem {offset : Nat} (h : offset ∈ [8, 12, 16, 20, 24, 28]) :
    ∃ r : RegName, offset = r.offset ∧ r ≠ .cmd ∧ r ≠ .status := by
  simp only [List.mem_cons, List.not_mem_nil, or_false] at h
  rcases h with rfl | rfl | rfl | rfl | rfl | rfl
  · exact ⟨.src, by decide⟩
  · exact ⟨.len, by decide⟩
  · exact ⟨.dst, by decide⟩
  · exact ⟨.key, by decide⟩
  · exact ⟨.klen, by decide⟩
  · exact ⟨.param, by decide⟩

/-! #### Steps on a register access -/

/-- A step on a whole word to be written at a multiple of 4 is that write. -/
theorem step_of_writeReg {s : State} {offset : Nat} {v : Word} {rest : List HostAccess} (ho : offset % 4 = 0)
    (h : s.host.pending = .writeReg offset v :: rest) : step s = writeOffset offset v (s.accepting rest) := by
  simp [step_of_pending h, hostAccess, ho]

/-- A step on a whole word to be read at a multiple of 4 changes the host's side only (R42). -/
theorem step_of_readReg {s : State} {offset : Nat} {rest : List HostAccess} (ho : offset % 4 = 0)
    (h : s.host.pending = .readReg offset :: rest) :
    step s = .next (s.setHost ⟨rest, some (.word (readOffset s offset))⟩) := by
  simp only [step_of_pending h, hostAccess, if_pos ho]
  rfl

/-- Settles O7: the offset is an operand register's, whose write is seen at no offset but its own. -/
theorem operandRegisterWriteIsReadBack : Obligations.OperandRegisterWriteIsReadBack := by
  unfold Obligations.OperandRegisterWriteIsReadBack
  intro s v offset rest hmem hp
  obtain ⟨r, rfl, hc, hs⟩ := exists_operand_of_mem hmem
  have hr : RegName.ofOffset r.offset = some r := ofOffset_eq_some_iff.2 rfl
  have hstep : step s = .next ((s.accepting rest).setRegs (s.regs.write r v)) := by
    rw [step_of_writeReg (by cases r <;> rfl) hp, writeOffset_of_operand _ hr hc hs]
    rfl
  refine ⟨_, hstep, ?_, fun o ho => ?_, rfl, rfl, rfl, rfl, rfl⟩
  · rw [readOffset_of_some hr]
    exact readReg_write_same (s := s.accepting rest) hc hs
  · exact readOffset_write_other (s := s.accepting rest) ho

/-- Settles O6: the step is the read, which answers the register at the offset. -/
theorem registerReadsHaveNoSideEffect : Obligations.RegisterReadsHaveNoSideEffect := by
  unfold Obligations.RegisterReadsHaveNoSideEffect
  intro s offset rest ho hp
  refine ⟨readOffset s offset, step_of_readReg ho hp, ?_, ?_, ?_, ?_, ?_, ?_, ?_, ?_, fun h => ?_⟩
  case refine_9 => exact readOffset_of_none (ofOffset_of_reserved h)
  all_goals
    rintro rfl
    rfl

/-- Settles O8: no register stands at a reserved offset. -/
theorem reservedOffsetsReadZeroAndIgnoreWrites : Obligations.ReservedOffsetsReadZeroAndIgnoreWrites := by
  unfold Obligations.ReservedOffsetsReadZeroAndIgnoreWrites
  intro s offset v rest ho hres
  have hnone := ofOffset_of_reserved hres
  refine ⟨fun hp => ?_, fun hp => ?_⟩
  · rw [step_of_writeReg ho hp, writeOffset_of_none _ hnone]
    rfl
  · rw [step_of_readReg ho hp, readOffset_of_none hnone]

/-- A step on a word to be written to CMD starts the command (R15). -/
theorem step_of_writeCmd {s : State} {w : Word} {rest : List HostAccess}
    (h : s.host.pending = .writeReg 0 w :: rest) : step s = startCommand w (s.accepting rest) :=
  step_of_writeReg rfl h

/-- A word that decodes to a command runs it. -/
theorem startCommand_of_decode {w : Word} {i : Instr} (s : State) (h : decode w = .ok i) :
    startCommand w s = exec i s := by
  simp [startCommand, h]

/-- Settles O13: the write to CMD starts the command its word decodes to. -/
theorem cmdWriteRunsTheDecodedCommand : Obligations.CmdWriteRunsTheDecodedCommand := by
  unfold Obligations.CmdWriteRunsTheDecodedCommand
  intro s w i rest hp hd
  rw [step_of_writeCmd hp]
  exact startCommand_of_decode _ hd

/-! #### Reset -/

/-- With STATUS, the operand registers and CTX0 as reset leaves them, every offset reads 0 (R29). -/
theorem readOffset_of_atReset {s : State} (hs : s.status = Status.atReset) (hr : s.regs = OperandRegs.zero)
    (hc : s.ctx0 = Ctx0.wiped) (offset : Nat) : readOffset s offset = 0 := by
  cases ho : RegName.ofOffset offset with
  | none => exact readOffset_of_none ho
  | some r =>
    rw [readOffset_of_some ho]
    cases r
    case cmd => rfl
    case status =>
      simp only [readReg, statusWord, hs, hc]
      decide
    all_goals
      simp only [readReg, hr]
      rfl

/-- Settles O1: reset leaves the fields the registers read from at their reset values. -/
theorem resetLeavesRegistersZeroAndContextWiped : Obligations.ResetLeavesRegistersZeroAndContextWiped := by
  unfold Obligations.ResetLeavesRegistersZeroAndContextWiped
  refine ⟨fun p buf => readOffset_of_atReset rfl rfl rfl, fun p buf => ⟨rfl, rfl, rfl, rfl, rfl⟩, fun s rest hp => ?_⟩
  exact ⟨resetMove (s.accepting rest), step_of_pending hp, readOffset_of_atReset rfl rfl rfl, rfl, rfl, rfl, rfl, rfl,
    rfl⟩

/-- Settles O2: BUF lists nothing and CTX0 is wiped. -/
theorem resetMeetsTheInvariant : Obligations.ResetMeetsTheInvariant where
  bufCanonical := rfl
  bufInside := fun _ hc => absurd hc List.not_mem_nil
  bufSizeAllowed := by decide
  openCtx := fun h => absurd h Bool.false_ne_true
  closedCtx := fun _ => rfl

/-! #### STATUS -/

/-- A flag stands in its own bit and in no other. -/
theorem getLsbD_flagBit {n : Nat} (hn : n < 32) (b : Bool) (k : Nat) :
    (flagBit n b).getLsbD k = (decide (k = n) && b) := by
  cases b with
  | false => simp [flagBit]
  | true =>
    have hbit : flagBit n true = BitVec.twoPow 32 n := rfl
    simp only [hbit, BitVec.getLsbD_twoPow, hn, decide_true, Bool.true_and, Bool.and_true, eq_comm]

/-- The STATUS word bit by bit: CODE in bits 3:0, CTXV in bit 8, STICKY in bit 9 (R16). -/
theorem getLsbD_statusWord (s : State) (k : Nat) :
    (statusWord s).getLsbD k = (s.status.code.toBits.getLsbD k || (decide (k = 8) && s.ctx0.valid) ||
      (decide (k = 9) && s.status.sticky)) := by
  have hcode : (s.status.code.toBits.setWidth 32).getLsbD k = s.status.code.toBits.getLsbD k := by
    by_cases hk : k < 32
    · simp [hk]
    · simp [BitVec.getLsbD_of_ge _ k (show 4 ≤ k by omega), hk]
  simp only [statusWord, BitVec.getLsbD_or, hcode, getLsbD_flagBit (show 8 < 32 by decide),
    getLsbD_flagBit (show 9 < 32 by decide)]

/-- Bits 3:0 of the STATUS word are the code's. -/
theorem extractLsb'_statusWord (s : State) : (statusWord s).extractLsb' 0 4 = s.status.code.toBits := by
  refine BitVec.eq_of_getLsbD_eq fun k hk => ?_
  have h8 : k ≠ 8 := by omega
  have h9 : k ≠ 9 := by omega
  simp [getLsbD_statusWord, hk, h8, h9]

/-- Every command word sets STICKY when its code is not OK and otherwise leaves it (R16). -/
theorem startCommand_sticky {w : Word} {s t : State} (h : startCommand w s = .next t) :
    t.status.sticky = (s.status.sticky || t.status.code != .ok) := by
  obtain ⟨i, -, hi⟩ | ⟨e, -, rfl⟩ := startCommand_cases h
  · obtain ⟨c, -, rfl⟩ | ⟨-, rfl⟩ := exec_cases hi
    · rfl
    · exact congrArg Status.sticky (effect_status i s)
  · rfl

/-- Everything a host access can do to STATUS: nothing, reset it, run a command, or what a write to STATUS does. -/
theorem hostAccess_status_cases {a : HostAccess} {s t : State} (h : hostAccess a s = .next t) :
    t.status = s.status ∨ a = .reset ∨ (∃ w, a = .writeReg 0 w ∧ startCommand w s = .next t) ∨
      ∃ v, a = .writeReg 4 v ∧ t.status = s.status.written v := by
  obtain ⟨offset, v, rfl, -, hw⟩ | ⟨_, -, -, rfl⟩ | ⟨_, _, -, -, rfl⟩ | ⟨_, _, -, -, rfl⟩ | ⟨rfl, -⟩ :=
    hostAccess_cases h
  · obtain ⟨rfl, hc⟩ | ⟨rfl, rfl⟩ | ⟨_, -, -, -, rfl⟩ | ⟨-, rfl⟩ := writeOffset_cases hw
    · exact .inr (.inr (.inl ⟨v, rfl, hc⟩))
    · exact .inr (.inr (.inr ⟨v, rfl, rfl⟩))
    · exact .inl rfl
    · exact .inl rfl
  · exact .inl rfl
  · exact .inl rfl
  · exact .inl rfl
  · exact .inr (.inl rfl)

/-- CODE is changed by nothing but a write to CMD and reset (R16). -/
theorem pending_of_step_code_ne {s t : State} (h : step s = .next t) (hne : t.status.code ≠ s.status.code) :
    ∃ rest, s.host.pending = .reset :: rest ∨ ∃ w, s.host.pending = .writeReg 0 w :: rest := by
  obtain ⟨-, rfl⟩ | ⟨a, rest, hp, ha⟩ := step_cases h
  · exact absurd rfl hne
  obtain hst | rfl | ⟨w, rfl, -⟩ | ⟨v, -, hst⟩ := hostAccess_status_cases ha
  · exact absurd (congrArg Status.code hst) hne
  · exact ⟨rest, .inl hp⟩
  · exact ⟨rest, .inr ⟨w, hp⟩⟩
  · exact absurd (congrArg Status.code hst) hne

/-- STICKY is cleared by nothing but reset and a write to STATUS of a word with bit 9 set (R16). -/
theorem pending_of_step_sticky_cleared {s t : State} (h : step s = .next t) (hs : s.status.sticky = true)
    (ht : t.status.sticky = false) :
    ∃ rest, s.host.pending = .reset :: rest ∨
      ∃ v, v.getLsbD 9 = true ∧ s.host.pending = .writeReg 4 v :: rest := by
  obtain ⟨-, rfl⟩ | ⟨a, rest, hp, ha⟩ := step_cases h
  · exact absurd (hs.symm.trans ht) (by decide)
  obtain hst | rfl | ⟨w, -, hw⟩ | ⟨v, rfl, hst⟩ := hostAccess_status_cases ha
  · simp [hst, hs] at ht
  · exact ⟨rest, .inl hp⟩
  · simp [startCommand_sticky hw, hs] at ht
  · exact ⟨rest, .inr ⟨v, by simpa [hst, Status.written, hs] using ht, hp⟩⟩

/-- Settles O5: the fields from the word's bits, and what an access can do to STATUS. -/
theorem statusRegisterFieldsAndSticky : Obligations.StatusRegisterFieldsAndSticky := by
  unfold Obligations.StatusRegisterFieldsAndSticky
  refine ⟨fun s => ?_, rfl, fun s v rest hp => ?_, fun s t w rest hp h => ?_, fun s t => pending_of_step_code_ne,
    fun s t => pending_of_step_sticky_cleared⟩
  · have hread : readOffset s 4 = statusWord s := rfl
    have hcode : ∀ k, 4 ≤ k → s.status.code.toBits.getLsbD k = false := fun k => BitVec.getLsbD_of_ge _ k
    rw [hread, getLsbD_statusWord, getLsbD_statusWord, hcode 8 (by decide), hcode 9 (by decide)]
    refine ⟨extractLsb'_statusWord s, by simp, by simp, fun k hk => ?_⟩
    rw [getLsbD_statusWord, hcode k (by omega), decide_eq_false (by omega), decide_eq_false (by omega)]
    rfl
  · exact step_of_writeReg rfl hp
  · rw [step_of_writeCmd hp] at h
    exact startCommand_sticky (s := s.accepting rest) h

/-! #### Frames of commands -/

/-- Settles O20: neither a refusal nor an effect writes them. -/
theorem noCommandChangesAnOperandRegister : Obligations.NoCommandChangesAnOperandRegister := by
  unfold Obligations.NoCommandChangesAnOperandRegister
  exact fun _ _ _ => kept_of_exec

/-- Settles O22: a refusal leaves BUF alone, and an effect writes exactly the bytes of the command's range. -/
theorem commandsWriteOnlyTheirRange : Obligations.CommandsWriteOnlyTheirRange := by
  unfold Obligations.CommandsWriteOnlyTheirRange
  intro i s t h a ha
  obtain ⟨c, -, rfl⟩ | ⟨hpass, rfl⟩ := exec_cases h
  · rfl
  · obtain ⟨v, hlen, hbuf⟩ := effect_buf hpass
    rw [hbuf]
    exact read_writeBytes_outside (by rwa [hlen])

/-! #### The invariant -/

/-- BUF's part of the invariant: canonical, and nothing listed at or above BUF_SIZE (R24). -/
structure BufOk (p : Params) (m : Memory) : Prop where
  canonical : m.wf = true
  inside : ∀ c ∈ m, c.1 < p.bufSize

/-- CTX0's part of the invariant (R20). -/
structure Ctx0Ok (c : Ctx0) : Prop where
  ofOpen : c.valid = true → c.ctx.bits.toNat % 8 = 0 ∧ c.ctx.pend.length = c.ctx.bits.toNat / 8 % 64
  ofClosed : c.valid = false → c.ctx = DigestCtx.wiped

theorem State.Inv.bufOk {s : State} (h : s.Inv) : BufOk s.params s.buf := ⟨h.bufCanonical, h.bufInside⟩

theorem State.Inv.ctx0Ok {s : State} (h : s.Inv) : Ctx0Ok s.ctx0 := ⟨h.openCtx, h.closedCtx⟩

/-- A state with the same parameters whose BUF and CTX0 have their parts of the invariant meets the whole of it. -/
theorem inv_of_parts {s t : State} (h : s.Inv) (hp : t.params = s.params) (hb : BufOk s.params t.buf)
    (hc : Ctx0Ok t.ctx0) : t.Inv where
  bufCanonical := hb.canonical
  bufInside := by rw [hp]; exact hb.inside
  bufSizeAllowed := by rw [hp]; exact h.bufSizeAllowed
  openCtx := hc.ofOpen
  closedCtx := hc.ofClosed

/-- STATUS, the operand registers and the host's side play no part in the invariant. -/
theorem inv_of_eq {s t : State} (h : s.Inv) (hp : t.params = s.params) (hb : t.buf = s.buf) (hc : t.ctx0 = s.ctx0) :
    t.Inv :=
  inv_of_parts h hp (hb ▸ h.bufOk) (hc ▸ h.ctx0Ok)

/-- Bytes written over a valid range keep BUF's part. -/
theorem bufOk_writeBytes {p : Params} {m : Memory} {addr : Nat} {v : Bytes} (h : BufOk p m)
    (hr : v.length = 0 ∨ addr + v.length ≤ p.bufSize) : BufOk p (m.writeBytes addr v) where
  canonical := wf_writeBytes addr v h.canonical
  inside := fun c hc => by
    rcases mem_writeBytes_address hc with hold | ⟨hlo, hhi⟩
    · exact h.inside c hold
    · omega

theorem ctx0Ok_wiped : Ctx0Ok Ctx0.wiped := ⟨fun h => absurd h Bool.false_ne_true, fun _ => rfl⟩

theorem ctx0Ok_new : Ctx0Ok ⟨ctxNew, true⟩ := ⟨fun _ => ⟨rfl, rfl⟩, fun h => absurd h.symm Bool.false_ne_true⟩

/-- Absorbing keeps R20 of an open context: BITS grows by 8 per byte modulo 2^64, which 8 * 64 divides. -/
theorem ctx0Ok_absorb {c : Ctx0} (data : Bytes) (h : Ctx0Ok c) (hv : c.valid = true) :
    Ctx0Ok { c with ctx := ctxAbsorb c.ctx data } where
  ofOpen := fun _ => by
    obtain ⟨hbits, hpend⟩ := h.ofOpen hv
    have hnew : (ctxAbsorb c.ctx data).bits.toNat = (c.ctx.bits.toNat + 8 * data.length) % 2 ^ 64 := by
      simp [ctxAbsorb_bits]
    have hlen := ctxAbsorb_pend_length (c := c.ctx) data (by omega)
    simp only [hnew, hlen]
    omega
  ofClosed := fun hc => absurd (hv.symm.trans hc) (by decide)

/-- Every effect that takes place leaves CTX0 as R20 has it. -/
theorem ctx0Ok_effect {i : Instr} {s : State} (hpass : firstFailure (checksOf i s) = none) (h : Ctx0Ok s.ctx0) :
    Ctx0Ok (effectOf i s).ctx0 := by
  cases i <;> simp only [effectOf, mdInitEffect_ctx0, mdUpdateEffect_ctx0, mdFinalEffect_ctx0, mdAbortEffect_ctx0,
    scApplyEffect_ctx0, ivGenEffect_ctx0, kdfDeriveEffect_ctx0, pgEncryptEffect_ctx0, pgDecryptEffect_ctx0]
  case mdInit => exact ctx0Ok_new
  case mdUpdate =>
    have hv : s.ctx0.valid = true := firstFailure_eq_none_iff.1 hpass (s.ctx0.valid, .badSeq) (by simp [checksOf])
    exact ctx0Ok_absorb _ h hv
  case mdFinal => exact ctx0Ok_wiped
  case mdAbort => exact ctx0Ok_wiped
  all_goals exact h

/-- Every command keeps the invariant. -/
theorem inv_of_exec {i : Instr} {s t : State} (hs : s.Inv) (h : exec i s = .next t) : t.Inv := by
  obtain ⟨c, -, rfl⟩ | ⟨hpass, rfl⟩ := exec_cases h
  · exact inv_of_eq hs rfl rfl rfl
  · obtain ⟨-, hparams, -⟩ := effect_kept i s
    obtain ⟨v, hlen, hbuf⟩ := effect_buf hpass
    have hrange := writeRange_ok hpass
    rw [RangeOk, ← hlen] at hrange
    exact inv_of_parts hs hparams (hbuf ▸ bufOk_writeBytes hs.bufOk hrange) (ctx0Ok_effect hpass hs.ctx0Ok)

/-- Every word written to CMD keeps the invariant. -/
theorem inv_of_startCommand {w : Word} {s t : State} (hs : s.Inv) (h : startCommand w s = .next t) : t.Inv := by
  obtain ⟨i, -, hi⟩ | ⟨e, -, rfl⟩ := startCommand_cases h
  · exact inv_of_exec hs hi
  · exact inv_of_eq hs rfl rfl rfl

/-- Every word written in the register window keeps the invariant. -/
theorem inv_of_writeOffset {offset : Nat} {v : Word} {s t : State} (hs : s.Inv)
    (h : writeOffset offset v s = .next t) : t.Inv := by
  obtain ⟨-, hc⟩ | ⟨-, rfl⟩ | ⟨_, -, -, -, rfl⟩ | ⟨-, rfl⟩ := writeOffset_cases h
  · exact inv_of_startCommand hs hc
  all_goals exact inv_of_eq hs rfl rfl rfl

/-- Every host access keeps the invariant. -/
theorem inv_of_hostAccess {a : HostAccess} {s t : State} (hs : s.Inv) (h : hostAccess a s = .next t) : t.Inv := by
  obtain ⟨offset, v, -, -, hw⟩ | ⟨_, -, -, rfl⟩ | ⟨addr, data, -, hr, rfl⟩ | ⟨_, _, -, -, rfl⟩ | ⟨-, rfl⟩ :=
    hostAccess_cases h
  · exact inv_of_writeOffset hs hw
  · exact inv_of_eq hs rfl rfl rfl
  · exact inv_of_parts hs rfl (bufOk_writeBytes hs.bufOk (rangeValid_iff.1 hr)) hs.ctx0Ok
  · exact inv_of_eq hs rfl rfl rfl
  · exact inv_of_parts hs rfl hs.bufOk ctx0Ok_wiped

/-- Settles O3: a step is a host access, and each kind of access keeps BUF's and CTX0's parts of the invariant. -/
theorem stepKeepsTheInvariant : Obligations.StepKeepsTheInvariant := by
  unfold Obligations.StepKeepsTheInvariant
  intro s t hs h
  obtain ⟨-, rfl⟩ | ⟨a, rest, -, ha⟩ := step_cases h
  · exact hs
  · exact inv_of_hostAccess (inv_of_eq (t := s.accepting rest) hs rfl rfl rfl) ha

/-! #### The word of a command -/

/-- The opcode map assigns each command the low byte of its word only (R53). -/
theorem opcode_of_opcodeMap {b : Byte} {i : Instr} (h : opcodeMap b = some i) : b = opcodeField (encode i) := by
  unfold opcodeMap at h
  split at h <;> cases h <;> exact BitVec.eq_of_toNat_eq ‹_›

/-- The two fields make up the word (R51). -/
theorem word_eq_of_fields {w w' : Word} (hr : rsvField w = rsvField w') (ho : opcodeField w = opcodeField w') :
    w = w' := by
  have hr := congrArg BitVec.toNat hr
  have ho := congrArg BitVec.toNat ho
  simp only [rsvField, opcodeField, BitVec.extractLsb'_toNat, Nat.shiftRight_eq_div_pow] at hr ho
  exact BitVec.eq_of_toNat_eq (by omega)

/-- A word that decodes to a command is that command's word (R52, R53). -/
theorem eq_encode_of_decode {w : Word} {i : Instr} (h : decode w = .ok i) : w = encode i := by
  unfold decode at h
  split at h
  · cases h
  · split at h <;> cases h
    have hrsv : rsvField w = 0 := not_not.1 ‹_›
    have hzero : rsvField (encode i) = 0 := by cases i <;> rfl
    exact word_eq_of_fields (hrsv.trans hzero.symm) (opcode_of_opcodeMap ‹_›)

/-! #### What the host can learn of CTX0 -/

/-- The state with other contents of CTX0 behind the same VALID bit: H, BITS and PEND are what R21 hides. -/
abbrev State.withCtx (s : State) (c : DigestCtx) : State := s.setCtx0 ⟨c, s.ctx0.valid⟩

/-- No register shows the contents of CTX0 (R21). -/
theorem readOffset_withCtx (s : State) (c : DigestCtx) (offset : Nat) :
    readOffset (s.withCtx c) offset = readOffset s offset := by
  cases ho : RegName.ofOffset offset with
  | none => rw [readOffset_of_none ho, readOffset_of_none ho]
  | some r =>
    rw [readOffset_of_some ho, readOffset_of_some ho]
    cases r <;> rfl

/-- No check looks at the contents of CTX0. -/
theorem firstFailure_withCtx (i : Instr) (s : State) (c : DigestCtx) :
    firstFailure (checksOf i (s.withCtx c)) = firstFailure (checksOf i s) := by
  cases i <;> rfl

/-- Bytes written to BUF and a code reported leave the contents of CTX0 as they are. -/
theorem finish_memWrite_withCtx (k : Code) (s : State) (c : DigestCtx) (addr : Nat) (v : Bytes) :
    finish k (memWrite (s.withCtx c) addr v) = (finish k (memWrite s addr v)).withCtx c := rfl

/-- No effect but MD_FINAL's carries the contents of CTX0 anywhere but into CTX0. -/
theorem effectOf_withCtx {i : Instr} (hi : i ≠ .mdFinal) (s : State) (c : DigestCtx) :
    ∃ c', effectOf i (s.withCtx c) = (effectOf i s).withCtx c' := by
  cases i
  case mdInit => exact ⟨ctxNew, rfl⟩
  case mdUpdate => exact ⟨ctxAbsorb c (sourceBytes s), rfl⟩
  case mdFinal => exact absurd rfl hi
  case mdAbort => exact ⟨DigestCtx.wiped, rfl⟩
  all_goals exact ⟨c, finish_memWrite_withCtx _ s c _ _⟩

/-- A command other than MD_FINAL runs alike whatever CTX0 contains. -/
theorem exec_withCtx {i : Instr} {s t : State} (hi : i ≠ .mdFinal) (h : exec i s = .next t) (c : DigestCtx) :
    ∃ c', exec i (s.withCtx c) = .next (t.withCtx c') := by
  have hchecks := firstFailure_withCtx i s c
  obtain ⟨code, hfail, rfl⟩ | ⟨hpass, rfl⟩ := exec_cases h
  · exact ⟨c, exec_of_fail (hchecks.trans hfail)⟩
  · obtain ⟨c', he⟩ := effectOf_withCtx hi s c
    exact ⟨c', he ▸ exec_of_pass (hchecks.trans hpass)⟩

/-- A word written to CMD other than MD_FINAL's runs alike whatever CTX0 contains. -/
theorem startCommand_withCtx {w : Word} {s t : State} (hw : w ≠ encode .mdFinal) (h : startCommand w s = .next t)
    (c : DigestCtx) : ∃ c', startCommand w (s.withCtx c) = .next (t.withCtx c') := by
  obtain ⟨i, hd, hi⟩ | ⟨e, hd, rfl⟩ := startCommand_cases h
  · rw [startCommand_of_decode _ hd]
    exact exec_withCtx (fun hf => hw (hf ▸ eq_encode_of_decode hd)) hi c
  · exact ⟨c, by simp only [startCommand, hd]; rfl⟩

/-- A word written in the register window, other than MD_FINAL's to CMD, acts alike whatever CTX0 contains. -/
theorem writeOffset_withCtx {offset : Nat} {v : Word} {s t : State} (hf : offset = 0 → v ≠ encode .mdFinal)
    (h : writeOffset offset v s = .next t) (c : DigestCtx) :
    ∃ c', writeOffset offset v (s.withCtx c) = .next (t.withCtx c') := by
  obtain ⟨rfl, hc⟩ | ⟨rfl, rfl⟩ | ⟨r, hr, hcmd, hst, rfl⟩ | ⟨hn, rfl⟩ := writeOffset_cases h
  · exact startCommand_withCtx (hf rfl) hc c
  · exact ⟨c, rfl⟩
  · exact ⟨c, writeOffset_of_operand _ hr hcmd hst⟩
  · exact ⟨c, writeOffset_of_none _ hn⟩

/-- A host access other than a write of MD_FINAL acts alike whatever CTX0 contains (R21). -/
theorem hostAccess_withCtx {a : HostAccess} {s t : State} (ha : a ≠ .writeReg 0 (encode .mdFinal))
    (h : hostAccess a s = .next t) (c : DigestCtx) : ∃ c', hostAccess a (s.withCtx c) = .next (t.withCtx c') := by
  obtain ⟨offset, v, rfl, ho, hw⟩ | ⟨offset, rfl, ho, rfl⟩ | ⟨addr, data, rfl, hr, rfl⟩ | ⟨addr, n, rfl, hr, rfl⟩ |
    ⟨rfl, rfl⟩ := hostAccess_cases h
  · simp only [hostAccess, if_pos ho]
    exact writeOffset_withCtx (fun h0 hv => ha (by rw [h0, hv])) hw c
  · exact ⟨c, by simp only [hostAccess, if_pos ho, readOffset_withCtx]; rfl⟩
  · exact ⟨c, if_pos hr⟩
  · exact ⟨c, if_pos hr⟩
  · exact ⟨DigestCtx.wiped, rfl⟩

/-- MD_FINAL's effect shows the contents of CTX0 in nothing but the 16 bytes at DST (R21). -/
theorem mdFinalEffect_withCtx_read (s : State) (c : DigestCtx) {a : Nat} (ha : Outside a s.regs.dst.toNat 16) :
    (mdFinalEffect (s.withCtx c)).buf.read a = (mdFinalEffect s).buf.read a := by
  rw [mdFinalEffect_buf, mdFinalEffect_buf, read_writeBytes_outside ha, read_writeBytes_outside ha]
  rfl

/-- Settles O24: every other access acts alike on the two states, and MD_FINAL's digest lands at DST only. -/
theorem hostContextIsNotReadable : Obligations.HostContextIsNotReadable := by
  unfold Obligations.HostContextIsNotReadable
  refine ⟨fun s t c a rest hp ha h => ?_, fun s t c h => ?_⟩
  · rw [step_of_pending hp] at h
    rw [step_of_pending (s := s.withCtx c) hp]
    exact hostAccess_withCtx ha h c
  · have hchecks := firstFailure_withCtx .mdFinal s c
    obtain ⟨code, hfail, rfl⟩ | ⟨hpass, rfl⟩ := exec_cases h
    · exact ⟨_, exec_of_fail (hchecks.trans hfail), rfl, rfl, rfl, rfl, rfl, fun _ _ => rfl⟩
    · obtain ⟨hregs, hparams, hhost⟩ := effect_kept .mdFinal s
      obtain ⟨hregs', hparams', hhost'⟩ := effect_kept .mdFinal (s.withCtx c)
      have hctx : (mdFinalEffect (s.withCtx c)).ctx0 = (mdFinalEffect s).ctx0 := by simp
      have hstatus : (mdFinalEffect (s.withCtx c)).status = (mdFinalEffect s).status := by simp [mdFinalEffect]
      exact ⟨_, exec_of_pass (hchecks.trans hpass), hstatus, hregs'.trans hregs.symm, congrArg Ctx0.valid hctx,
        hparams'.trans hparams.symm, hhost'.trans hhost.symm, fun _ ha => mdFinalEffect_withCtx_read s c ha⟩

end Sys2Proof.Machine
end

/-! ### The host's accesses to BUF, and what every step takes and keeps -/

section
namespace Sys2Proof.Machine

/-- A step on bytes to be written to a range of BUF that exists is that write (R36). -/
theorem step_of_writeBuf {s : State} {addr : Nat} {data : Bytes} {rest : List HostAccess}
    (hr : RangeOk s (addr, data.length)) (h : s.host.pending = .writeBuf addr data :: rest) :
    step s = .next (memWrite (s.accepting rest) addr data) := by
  rw [step_of_pending h]
  exact if_pos (rangeValid_iff.2 hr)

/-- A step on a range of BUF that exists to be read changes the host's side only, which gets the bytes (R35). -/
theorem step_of_readBuf {s : State} {addr n : Nat} {rest : List HostAccess} (hr : RangeOk s (addr, n))
    (h : s.host.pending = .readBuf addr n :: rest) :
    step s = .next (s.setHost ⟨rest, some (.bytes (memRead s addr n))⟩) := by
  rw [step_of_pending h]
  exact if_pos (rangeValid_iff.2 hr)

/-- A write to bytes that do not exist has no move (R24, R37). -/
theorem step_of_writeBuf_outside {s : State} {addr : Nat} {data : Bytes} {rest : List HostAccess}
    (hr : ¬ RangeOk s (addr, data.length)) (h : s.host.pending = .writeBuf addr data :: rest) :
    step s = .fault .bufAddressDoesNotExist := by
  rw [step_of_pending h]
  exact if_neg (mt rangeValid_iff.1 hr)

/-- A read of bytes that do not exist has no move (R24, R37). -/
theorem step_of_readBuf_outside {s : State} {addr n : Nat} {rest : List HostAccess} (hr : ¬ RangeOk s (addr, n))
    (h : s.host.pending = .readBuf addr n :: rest) : step s = .fault .bufAddressDoesNotExist := by
  rw [step_of_pending h]
  exact if_neg (mt rangeValid_iff.1 hr)

/-- Settles O10: the first step is the write and the second the read of what it wrote. -/
theorem hostBufferWritesAreReadBack : Obligations.HostBufferWritesAreReadBack := by
  unfold Obligations.HostBufferWritesAreReadBack
  refine ⟨fun s addr data rest hw hr hp => ?_, fun _ _ _ _ => step_of_writeBuf_outside,
    fun _ _ _ _ => step_of_readBuf_outside⟩
  let u := s.accepting (.readBuf addr data.length :: rest)
  have hread : memRead (memWrite u addr data) addr data.length = data := memRead_memWrite_same hw rfl
  have hnext : step (memWrite u addr data) = .next ((memWrite u addr data).setHost ⟨rest, some (.bytes data)⟩) := by
    rw [step_of_readBuf (s := memWrite u addr data) hr rfl, hread]
  exact ⟨_, step_of_writeBuf hr hp, fun _ ha => read_writeBytes_outside ha, rfl, rfl, rfl, rfl, hnext⟩

/-- Settles O12: the access a step takes is the oldest, and no access changes a parameter or the ones still to come. -/
theorem eachStepTakesOneAccessAndKeepsParameters : Obligations.EachStepTakesOneAccessAndKeepsParameters := by
  unfold Obligations.EachStepTakesOneAccessAndKeepsParameters
  intro s t h
  obtain ⟨hparams, hpending⟩ := step_params_pending h
  exact ⟨hpending, hparams⟩

end Sys2Proof.Machine
end

/-! ### The encoding: command words, the operands a command reads, and the pseudo-instruction MD_DIGEST -/

section
namespace Sys2Proof.Machine

/-! #### The words of the table and the reserved ones -/

/-- The nine assigned opcodes, in the order of the table (R53). -/
abbrev assignedOpcodes : List Byte := [0x01, 0x02, 0x03, 0x04, 0x10, 0x20, 0x30, 0x40, 0x41]

theorem mem_instrAll (i : Instr) : i ∈ Instr.all := by
  cases i <;> decide

theorem wf_instr (i : Instr) : i.wf = true := by
  cases i <;> rfl

theorem rsvField_encode (i : Instr) : rsvField (encode i) = 0 := by
  cases i <;> rfl

theorem opcodeField_encode_mem (i : Instr) : opcodeField (encode i) ∈ assignedOpcodes := by
  cases i <;> decide

/-- The word of a command decodes to it (R53). -/
theorem decode_encode (i : Instr) : decode (encode i) = .ok i := by
  cases i <;> rfl

/-- The decoder accepts a command's word and no other (R52). -/
theorem decode_eq_ok_iff {w : Word} {i : Instr} : decode w = .ok i ↔ w = encode i :=
  ⟨eq_encode_of_decode, fun h => h ▸ decode_encode i⟩

/-- A word whose bits 31:8 are not zero is rejected (R54). -/
theorem decode_of_rsvField_ne {w : Word} (h : rsvField w ≠ 0) : decode w = .error .reservedFieldNotZero :=
  if_pos h

/-- The opcode map assigns no command to an opcode outside the table (R54). -/
theorem opcodeMap_of_notMem {b : Byte} (h : b ∉ assignedOpcodes) : opcodeMap b = none := by
  cases hm : opcodeMap b with
  | none => rfl
  | some i => exact absurd (opcode_of_opcodeMap hm ▸ opcodeField_encode_mem i) h

/-- A word with bits 31:8 zero and an unassigned low byte is rejected (R54). -/
theorem decode_of_opcodeField_notMem {w : Word} (hr : rsvField w = 0) (ho : opcodeField w ∉ assignedOpcodes) :
    decode w = .error .opcodeNotAssigned := by
  simp [decode, hr, opcodeMap_of_notMem ho]

/-- Every reserved word is rejected, by one reason or the other (R54). -/
theorem exists_decode_eq_error {w : Word} (h : rsvField w ≠ 0 ∨ opcodeField w ∉ assignedOpcodes) :
    ∃ e, decode w = .error e := by
  cases hd : decode w with
  | error e => exact ⟨e, rfl⟩
  | ok i =>
    obtain rfl := eq_encode_of_decode hd
    exact absurd h (not_or.2 ⟨not_not.2 (rsvField_encode i), not_not.2 (opcodeField_encode_mem i)⟩)

/-- A rejected word written to CMD ends with BAD_CMD (R52, R143). -/
theorem startCommand_of_error {w : Word} {e : DecodeReject} (s : State) (h : decode w = .error e) :
    startCommand w s = .next (finish .badCmd s) := by
  simp [startCommand, h, raise]

/-- Settles O14: a word is decoded by its two fields, and the fields of the nine words are those of the table. -/
theorem decoderAcceptsExactlyTheTable : Obligations.DecoderAcceptsExactlyTheTable := by
  unfold Obligations.DecoderAcceptsExactlyTheTable
  exact ⟨fun _ _ => decode_eq_ok_iff, rfl, fun i => ⟨mem_instrAll i, wf_instr i, rsvField_encode i⟩,
    fun _ => decode_of_rsvField_ne, fun _ => decode_of_opcodeField_notMem,
    fun s _ _ h => ⟨_, startCommand_of_error s h, refusedWith_finish s (by decide)⟩⟩

/-- Settles O15: nine of the words are commands' words, and the three others have a reserved field. -/
theorem wordsOfTheTableDecode : Obligations.WordsOfTheTableDecode := by
  unfold Obligations.WordsOfTheTableDecode
  exact ⟨decode_encode .mdInit, decode_encode .mdUpdate, decode_encode .mdFinal, decode_encode .mdAbort,
    decode_encode .scApply, decode_encode .ivGen, decode_encode .kdfDerive, decode_encode .pgEncrypt,
    decode_encode .pgDecrypt, decode_of_opcodeField_notMem (by decide) (by decide),
    decode_of_opcodeField_notMem (by decide) (by decide), decode_of_rsvField_ne (by decide)⟩

/-- Settles O16: a reserved word decodes to no command, and BAD_CMD stands in no command's row of R140. -/
theorem reservedWordRaisesBadCmd : Obligations.ReservedWordRaisesBadCmd := by
  unfold Obligations.ReservedWordRaisesBadCmd
  refine ⟨fun s w rest hp hw => ?_, fun i s t h hcode => ?_⟩
  · obtain ⟨e, he⟩ := exists_decode_eq_error hw
    rw [step_of_writeCmd hp, startCommand_of_error _ he]
    exact congrArg _ (refusedWith_finish _ (by decide))
  · have hrow : producesCode i .badCmd = true := hcode ▸ producesCode_of_exec h
    cases i <;> cases hrow

/-! #### The operand registers a command reads -/

/-- Bytes written to BUF and a code reported leave the operand registers as they are. -/
theorem finish_memWrite_setRegs (c : Code) (s : State) (x : OperandRegs) (addr : Nat) (v : Bytes) :
    finish c (memWrite (s.setRegs x) addr v) = (finish c (memWrite s addr v)).setRegs x := rfl

/-- Nor does a change of CTX0 after the bytes are written touch them. -/
theorem finish_memWrite_setCtx0_setRegs (c : Code) (s : State) (x : OperandRegs) (addr : Nat) (v : Bytes) (k : Ctx0) :
    finish c ((memWrite (s.setRegs x) addr v).setCtx0 k) = (finish c ((memWrite s addr v).setCtx0 k)).setRegs x := rfl

/-- A command's checks and effect look at no operand register but those of its row (R55). -/
theorem checksOf_effectOf_setRegs {i : Instr} {s : State} {x : OperandRegs}
    (hrow : ∀ r, readsOperand i r = true → readReg (s.setRegs x) r = readReg s r) :
    checksOf i (s.setRegs x) = checksOf i s ∧ effectOf i (s.setRegs x) = (effectOf i s).setRegs x := by
  obtain ⟨src, len, dst, key, klen, param⟩ := x
  cases i
  case mdInit | mdAbort => exact ⟨rfl, rfl⟩
  case mdUpdate =>
    obtain rfl : src = _ := hrow .src rfl
    obtain rfl : len = _ := hrow .len rfl
    exact ⟨rfl, rfl⟩
  case mdFinal =>
    obtain rfl : dst = _ := hrow .dst rfl
    exact ⟨rfl, finish_memWrite_setCtx0_setRegs ..⟩
  case scApply =>
    obtain rfl : src = _ := hrow .src rfl
    obtain rfl : len = _ := hrow .len rfl
    obtain rfl : dst = _ := hrow .dst rfl
    obtain rfl : key = _ := hrow .key rfl
    obtain rfl : klen = _ := hrow .klen rfl
    exact ⟨rfl, finish_memWrite_setRegs ..⟩
  case ivGen =>
    obtain rfl : dst = _ := hrow .dst rfl
    obtain rfl : param = _ := hrow .param rfl
    exact ⟨rfl, finish_memWrite_setRegs ..⟩
  case kdfDerive =>
    obtain rfl : src = _ := hrow .src rfl
    obtain rfl : len = _ := hrow .len rfl
    obtain rfl : dst = _ := hrow .dst rfl
    exact ⟨rfl, finish_memWrite_setRegs ..⟩
  case pgEncrypt | pgDecrypt =>
    obtain rfl : src = _ := hrow .src rfl
    obtain rfl : len = _ := hrow .len rfl
    obtain rfl : key = _ := hrow .key rfl
    obtain rfl : param = _ := hrow .param rfl
    exact ⟨rfl, finish_memWrite_setRegs ..⟩

/-- A command runs alike from any operand registers that agree on its row (R55). -/
theorem exec_setRegs {i : Instr} {s t : State} {x : OperandRegs}
    (hrow : ∀ r, readsOperand i r = true → readReg (s.setRegs x) r = readReg s r) (h : exec i s = .next t) :
    exec i (s.setRegs x) = .next (t.setRegs x) := by
  obtain ⟨hchecks, heffect⟩ := checksOf_effectOf_setRegs hrow
  obtain ⟨c, hfail, rfl⟩ | ⟨hpass, rfl⟩ := exec_cases h
  · exact exec_of_fail (hchecks ▸ hfail)
  · exact heffect ▸ exec_of_pass (hchecks ▸ hpass)

/-- Settles O21: writing a register the row leaves blank changes none that the row names. -/
theorem blankOperandRegistersAreIgnored : Obligations.BlankOperandRegistersAreIgnored := by
  unfold Obligations.BlankOperandRegistersAreIgnored
  intro i s t h
  have hregs : t.regs = s.regs := (kept_of_exec h).regs
  refine ⟨hregs, fun r v hblank => ?_⟩
  rw [hregs]
  refine exec_setRegs (fun r' hread => readReg_write_other ?_) h
  rintro rfl
  exact absurd hread (by simp [hblank])

/-! #### Runs of the host's shorthand -/

/-- Two runs, one after the other. -/
theorem runsTo_add {m n : Nat} {s u t : State} (h : RunsTo m s u) (h' : RunsTo n u t) : RunsTo (m + n) s t := by
  induction m generalizing s with
  | zero =>
    obtain rfl : s = u := h
    rwa [Nat.zero_add]
  | succ m ih =>
    obtain ⟨v, hv, hr⟩ := h
    rw [Nat.add_right_comm]
    exact ⟨v, hv, ih hr⟩

/-- The shorthand's write of an operand register stores it (R17, R58). -/
theorem step_of_wr {s : State} {r : RegName} {v : Word} {rest : List HostAccess} (hc : r ≠ .cmd) (hs : r ≠ .status)
    (h : s.host.pending = Asm.wr r v :: rest) : step s = .next ((s.accepting rest).setRegs (s.regs.write r v)) := by
  rw [step_of_writeReg (by cases r <;> rfl) h]
  exact writeOffset_of_operand _ (ofOffset_eq_some_iff.2 rfl) hc hs

/-- The write of a command's word to CMD has the command's effect when its checks hold (R15). -/
theorem step_of_wr_cmd {s : State} {i : Instr} {rest : List HostAccess} (hpass : firstFailure (checksOf i s) = none)
    (h : s.host.pending = Asm.wr .cmd (encode i) :: rest) : step s = .next (effectOf i (s.accepting rest)) := by
  have hchecks : checksOf i (s.accepting rest) = checksOf i s := by cases i <;> rfl
  rw [step_of_writeCmd h, startCommand_of_decode _ (decode_encode i)]
  exact exec_of_pass (hchecks ▸ hpass)

section
variable {s : State} {rest : List HostAccess}

/-- `MD_INIT` (R59). -/
theorem runsTo_mdInit (h : s.host.pending = Asm.mdInit ++ rest) : RunsTo 1 s (mdInitEffect (s.accepting rest)) :=
  ⟨_, step_of_wr_cmd (i := .mdInit) rfl h, rfl⟩

/-- `MD_UPDATE src=A, len=N` with a context open and a valid range (R59, R78). -/
theorem runsTo_mdUpdate {src len : Word} (h : s.host.pending = Asm.mdUpdate src len ++ rest)
    (hv : s.ctx0.valid = true) (hr : RangeOk s (src.toNat, len.toNat)) :
    RunsTo 3 s (mdUpdateEffect ((s.accepting rest).setRegs { s.regs with src := src, len := len })) := by
  have hvalid : rangeValid s.params src.toNat len.toNat = true := rangeValid_iff.2 hr
  refine ⟨_, step_of_wr (by decide) (by decide) h, _, step_of_wr (by decide) (by decide) rfl, _,
    step_of_wr_cmd (i := .mdUpdate) ?_ rfl, rfl⟩
  simp [checksOf, sourceValid, srcAddr, lenCount, OperandRegs.write, hv, hvalid]

/-- `MD_FINAL dst=A` with a context open and a valid range (R59, R79). -/
theorem runsTo_mdFinal {dst : Word} (h : s.host.pending = Asm.mdFinal dst ++ rest) (hv : s.ctx0.valid = true)
    (hr : RangeOk s (dst.toNat, 16)) :
    RunsTo 2 s (mdFinalEffect ((s.accepting rest).setRegs { s.regs with dst := dst })) := by
  have hvalid : rangeValid s.params dst.toNat 16 = true := rangeValid_iff.2 hr
  refine ⟨_, step_of_wr (by decide) (by decide) h, _, step_of_wr_cmd (i := .mdFinal) ?_ rfl, rfl⟩
  simp [checksOf, destValid, dstAddr, OperandRegs.write, hv, hvalid]

end

/-- `MD_DIGEST src=A, len=N, dst=D` with both ranges valid: BUF gets the digest of the source at D, no code but OK is
reported, and the context is closed (R60). -/
theorem runsTo_mdDigest {s : State} {src len dst : Word} (h : s.host.pending = Asm.mdDigest src len dst)
    (hsrc : RangeOk s (src.toNat, len.toNat)) (hdst : RangeOk s (dst.toNat, 16)) :
    ∃ t, RunsTo 6 s t ∧ t.buf = s.buf.writeBytes dst.toNat (md (memRead s src.toNat len.toNat)) ∧
      t.status = ⟨.ok, s.status.sticky⟩ ∧ t.ctx0 = Ctx0.wiped ∧ t.host.pending = [] := by
  let u := mdInitEffect (s.accepting (Asm.mdUpdate src len ++ Asm.mdFinal dst))
  let v := mdUpdateEffect ((u.accepting (Asm.mdFinal dst)).setRegs { u.regs with src := src, len := len })
  have hinit : RunsTo 1 s u := runsTo_mdInit h
  have hupdate : RunsTo 3 u v := runsTo_mdUpdate rfl rfl hsrc
  have hfinal : RunsTo 2 v _ := runsTo_mdFinal (rest := []) rfl rfl hdst
  have hbuf : v.buf = s.buf := by simp [v, u]
  have hctx : v.ctx0.ctx = ctxAbsorb ctxNew (memRead s src.toNat len.toNat) := by
    simp only [v, u, mdUpdateEffect_ctx0]
    rfl
  refine ⟨_, runsTo_add hinit (runsTo_add hupdate hfinal), ?_, ?_, by simp, ?_⟩
  · simp only [mdFinalEffect_buf, setRegs_buf, setRegs_ctx0, accepting_buf, accepting_ctx0, hbuf, hctx]
    rfl
  · simp [v, u, mdFinalEffect, mdUpdateEffect, mdInitEffect, Status.after]
  · rfl

/-- Settles O36: the three commands run one after the other, and the last writes the digest of what the second read. -/
theorem mdDigestPseudoInstruction : Obligations.MdDigestPseudoInstruction := by
  unfold Obligations.MdDigestPseudoInstruction
  intro s src len dst hwf hsrc hdst
  obtain ⟨t, hrun, hbuf, hstatus, hctx, hpending⟩ := runsTo_mdDigest (s := s.loaded _) rfl hsrc hdst
  refine ⟨t, hrun, ?_, fun a ha => ?_, hstatus, congrArg Ctx0.valid hctx, hpending⟩
  · rw [memRead, hbuf]
    exact readBytes_writeBytes_same _ _ hwf
  · rw [hbuf]
    exact read_writeBytes_outside ha

end Sys2Proof.Machine
end

/-! ### The digest engine -/

section
namespace Sys2Proof.Machine

/-! #### Absorbing, padding and finishing -/

/-- Absorbing pieces in turn is absorbing their concatenation (R76). -/
theorem foldl_ctxAbsorb (c : DigestCtx) (pieces : List Bytes) :
    pieces.foldl ctxAbsorb c = ctxAbsorb c pieces.flatten := by
  induction pieces generalizing c with
  | nil => rfl
  | cons m ms ih => rw [List.foldl_cons, ih, List.flatten_cons, ctxAbsorb_append]

/-- Settles O34: the split disappears by `foldl_ctxAbsorb`. -/
theorem digestDoesNotDependOnTheSplit : Obligations.DigestDoesNotDependOnTheSplit := by
  unfold Obligations.DigestDoesNotDependOnTheSplit
  intro c pieces
  exact ⟨foldl_ctxAbsorb c pieces, congrArg ctxFinish (foldl_ctxAbsorb ctxNew pieces), md_length _⟩

/-- With at most 55 bytes pending the tail fills one block. -/
theorem padZeros_of_le {pn : Nat} (h : pn ≤ 55) : padZeros pn = 55 - pn := by
  unfold padZeros
  omega

/-- With 56 to 63 bytes pending the length of the message needs a second block. -/
theorem padZeros_of_ge {pn : Nat} (hl : 56 ≤ pn) (hu : pn ≤ 63) : padZeros pn = 119 - pn := by
  unfold padZeros
  omega

/-- The tail has the pending bytes, the byte 0x80, the zero bytes and the 8 bytes of the length. -/
theorem ctxTail_length (c : DigestCtx) : (ctxTail c).length = c.pend.length + padZeros c.pend.length + 9 := by
  simp only [ctxTail, List.length_append, List.length_singleton, zeros_length, le64_length]
  omega

/-- Settles O33: the number of zero bytes decides the number of blocks. -/
theorem paddingFillsOneOrTwoBlocks : Obligations.PaddingFillsOneOrTwoBlocks := by
  unfold Obligations.PaddingFillsOneOrTwoBlocks
  refine fun c hu => ⟨fun hl => ?_, fun hl => ?_⟩
  · rw [ctxTail_length, ctxTail, padZeros_of_le hl]
    exact ⟨rfl, by omega⟩
  · rw [ctxTail_length, ctxTail, padZeros_of_ge hl hu]
    exact ⟨rfl, by omega⟩

/-! #### MD_INIT and MD_ABORT -/

/-- STATUS after a command that ends OK: STICKY is as it was (R16). -/
theorem after_ok (x : Status) : x.after .ok = ⟨.ok, x.sticky⟩ := by
  simp [Status.after]

/-- Settles O29: MD_INIT has no check, and its effect is on STATUS and CTX0. -/
theorem mdInitOpensAFreshContext : Obligations.MdInitOpensAFreshContext := by
  unfold Obligations.MdInitOpensAFreshContext
  intro s
  rw [← after_ok]
  exact exec_of_pass rfl

/-- Settles O30: MD_ABORT has no check, and its effect is on STATUS and CTX0. -/
theorem mdAbortWipesTheContext : Obligations.MdAbortWipesTheContext := by
  unfold Obligations.MdAbortWipesTheContext
  intro s
  rw [← after_ok]
  exact exec_of_pass rfl

/-! #### MD_UPDATE and MD_FINAL -/

section
variable {i : Instr} {s : State} {addr n : Nat}
  (hc : checksOf i s = [(s.ctx0.valid, .badSeq), (rangeValid s.params addr n, .badAddr)])
include hc

/-- A command that checks for an open context and a range has its effect when both are there. -/
theorem exec_of_open_of_rangeOk (hv : s.ctx0.valid = true) (hr : RangeOk s (addr, n)) :
    exec i s = .next (effectOf i s) := by
  have hvalid : rangeValid s.params addr n = true := rangeValid_iff.2 hr
  exact exec_of_pass (by simp [hc, hv, hvalid])

/-- Without an open context such a command is refused with BAD_SEQ, whatever the range (R144, R149). -/
theorem exec_of_closed (hv : s.ctx0.valid = false) : ∃ t, exec i s = .next t ∧ RefusedWith .badSeq s t :=
  ⟨_, exec_of_fail (by simp [hc, hv]), refusedWith_finish s (by decide)⟩

/-- With an open context and a bad range such a command is refused with BAD_ADDR (R146). -/
theorem exec_of_open_of_not_rangeOk (hv : s.ctx0.valid = true) (hr : ¬ RangeOk s (addr, n)) :
    ∃ t, exec i s = .next t ∧ RefusedWith .badAddr s t := by
  have hvalid : ¬ rangeValid s.params addr n = true := mt rangeValid_iff.1 hr
  exact ⟨_, exec_of_fail (by simp [hc, hv, hvalid]), refusedWith_finish s (by decide)⟩

end

/-- STATUS after an effect, as the statements say it (R16). -/
theorem endsWith_effect (i : Instr) (s : State) : EndsWith (effectOf i s).status.code s (effectOf i s) :=
  ⟨rfl, congrArg Status.sticky (effect_status i s)⟩

/-- Settles O31: the clauses on CTX0 are the laws of absorbing, for the LEN bytes at SRC. -/
theorem mdUpdateAbsorbsTheSource : Obligations.MdUpdateAbsorbsTheSource := by
  unfold Obligations.MdUpdateAbsorbsTheSource
  refine ⟨fun s hv hr => ?_, fun s => exec_of_closed rfl, fun s => exec_of_open_of_not_rangeOk rfl⟩
  have hlen : (sourceBytes s).length = s.regs.len.toNat := sourceBytes_length s
  have hctx : (mdUpdateEffect s).ctx0 = ⟨ctxAbsorb s.ctx0.ctx (sourceBytes s), true⟩ := by
    simp only [mdUpdateEffect_ctx0, hv]
  have hexec : exec .mdUpdate s = .next (mdUpdateEffect s) := exec_of_open_of_rangeOk rfl hv hr
  refine ⟨_, hexec, hctx, ?_, fun hblock => ?_, fun hpend => ?_,
    fun hzero => ?_, endsWith_effect .mdUpdate s, mdUpdateEffect_buf s, kept_of_exec hexec⟩
  · rw [hctx, ctxAbsorb_bits, hlen, BitVec.ofNat_toNat]
  · rw [hctx, ctxAbsorb_of_no_block _ (hlen ▸ hblock)]
    exact ⟨rfl, rfl⟩
  · rw [hctx, ctxAbsorb_pend_length _ hpend, hlen]
  · have hnil : sourceBytes s = [] := List.eq_nil_of_length_eq_zero (by rw [hlen, hzero]; rfl)
    rw [hctx, hnil, ctxAbsorb_nil, ← hv]

/-- The digest MD_FINAL writes at DST is read back there. -/
theorem memRead_mdFinalEffect {s : State} (hw : s.buf.wf = true) :
    memRead (mdFinalEffect s) s.regs.dst.toNat 16 = ctxFinish s.ctx0.ctx :=
  memRead_memWrite_same hw (ctxFinish_length _)

/-- Settles O32: the effect writes the digest over exactly the 16 bytes at DST. -/
theorem mdFinalDeliversTheDigestAndWipes : Obligations.MdFinalDeliversTheDigestAndWipes := by
  unfold Obligations.MdFinalDeliversTheDigestAndWipes
  refine ⟨fun s hw hv hr => ?_, fun s => exec_of_closed rfl, fun s => exec_of_open_of_not_rangeOk rfl⟩
  have hexec : exec .mdFinal s = .next (mdFinalEffect s) := exec_of_open_of_rangeOk rfl hv hr
  refine ⟨_, hexec, memRead_mdFinalEffect hw, fun a ha => ?_, mdFinalEffect_ctx0 s, endsWith_effect .mdFinal s,
    kept_of_exec hexec⟩
  rw [mdFinalEffect_buf]
  exact read_writeBytes_outside ha

/-! #### Commands of other units -/

/-- Bytes written to BUF and a code reported leave CTX0 as it is. -/
theorem finish_memWrite_setCtx0 (k : Code) (s : State) (c : Ctx0) (addr : Nat) (v : Bytes) :
    finish k (memWrite (s.setCtx0 c) addr v) = (finish k (memWrite s addr v)).setCtx0 c := rfl

/-- The checks of a command of another unit do not look at CTX0, and its effect carries CTX0 through unread (R82). -/
theorem checksOf_effectOf_setCtx0 {i : Instr} (hi : isDigestCommand i = false) (s : State) (c : Ctx0) :
    checksOf i (s.setCtx0 c) = checksOf i s ∧ effectOf i (s.setCtx0 c) = (effectOf i s).setCtx0 c := by
  cases i
  case mdInit | mdUpdate | mdFinal | mdAbort => cases hi
  all_goals exact ⟨rfl, finish_memWrite_setCtx0 ..⟩

/-- No command of another unit writes CTX0 (R82). -/
theorem effectOf_ctx0_of_other {i : Instr} (hi : isDigestCommand i = false) (s : State) :
    (effectOf i s).ctx0 = s.ctx0 := by
  have heffect : effectOf i s = (effectOf i s).setCtx0 s.ctx0 := (checksOf_effectOf_setCtx0 hi s s.ctx0).2
  rw [heffect, setCtx0_ctx0]

/-- Settles O23: neither the checks nor the effect look at CTX0, and the effect carries it through. -/
theorem otherUnitsNeverTouchTheHostContext : Obligations.OtherUnitsNeverTouchTheHostContext := by
  unfold Obligations.OtherUnitsNeverTouchTheHostContext
  intro i s t hi h
  obtain ⟨code, hfail, rfl⟩ | ⟨hpass, rfl⟩ := exec_cases h
  · refine ⟨rfl, fun c => ?_⟩
    obtain ⟨hchecks, -⟩ := checksOf_effectOf_setCtx0 hi s c
    exact exec_of_fail (hchecks ▸ hfail)
  · refine ⟨effectOf_ctx0_of_other hi s, fun c => ?_⟩
    obtain ⟨hchecks, heffect⟩ := checksOf_effectOf_setCtx0 hi s c
    exact heffect ▸ exec_of_pass (hchecks ▸ hpass)

/-! #### The command sequence law -/

/-- A digest is under way: CTX0 is open with the given contents, and BUF is canonical. -/
structure DigestOpen (c : DigestCtx) (s : State) : Prop where
  ctx0 : s.ctx0 = ⟨c, true⟩
  bufCanonical : s.buf.wf = true

/-- The only command with a snapshot is an MD_UPDATE whose checks hold, and the snapshot is its source (R81). -/
theorem snapshotOf_command (s : State) (i : Instr) :
    snapshotOf s (.writeReg 0 (encode i)) =
      if i = .mdUpdate ∧ firstFailure (checksOf i s) = none then sourceBytes s else [] := by
  have hword : encode i = encode .mdUpdate ↔ i = .mdUpdate := by cases i <;> decide
  by_cases hi : i = .mdUpdate
  · subst hi
    simp only [snapshotOf, firstFailure_eq_none_iff, checksOf, List.forall_mem_cons, sourceValid]
    simp [sourceBytes, srcAddr, lenCount]
  · simp [snapshotOf, hword, hi]

/-- A rejected word has no snapshot. -/
theorem snapshotOf_of_error {s : State} {w : Word} {e : DecodeReject} (h : decode w = .error e) :
    snapshotOf s (.writeReg 0 w) = [] := by
  have hne : w ≠ encode .mdUpdate := fun hw => by simp [hw, decode_encode] at h
  simp [snapshotOf, hne]

/-- A write to another register has no snapshot. -/
theorem snapshotOf_of_offset_ne {s : State} {offset : Nat} {w : Word} (h : offset ≠ 0) :
    snapshotOf s (.writeReg offset w) = [] := by
  cases offset with
  | zero => exact absurd rfl h
  | succ n => rfl

section
variable {c : DigestCtx} {s t : State}

/-- An access that leaves CTX0 and BUF's canonical form alone and has no snapshot adds nothing to the digest. -/
theorem digestOpen_of_no_snapshot {m : Bytes} (hs : DigestOpen c s) (hm : m = []) (hctx : t.ctx0 = s.ctx0)
    (hbuf : t.buf.wf = true) : DigestOpen (ctxAbsorb c m) t :=
  ⟨by rw [hctx, hs.ctx0, hm, ctxAbsorb_nil], hbuf⟩

/-- Every effect keeps BUF canonical. -/
theorem bufCanonical_effect {i : Instr} (hpass : firstFailure (checksOf i s) = none) (hs : s.buf.wf = true) :
    (effectOf i s).buf.wf = true := by
  obtain ⟨v, -, hbuf⟩ := effect_buf hpass
  rw [hbuf]
  exact wf_writeBytes _ v hs

/-- A command other than MD_INIT, MD_FINAL and MD_ABORT absorbs its snapshot. -/
theorem digestOpen_of_exec {i : Instr} (hs : DigestOpen c s) (hi : isDigestCommand i = true → i = .mdUpdate)
    (h : exec i s = .next t) : DigestOpen (ctxAbsorb c (snapshotOf s (.writeReg 0 (encode i)))) t := by
  rw [snapshotOf_command]
  obtain ⟨code, hfail, rfl⟩ | ⟨hpass, rfl⟩ := exec_cases h
  · exact digestOpen_of_no_snapshot hs (by simp [hfail]) rfl hs.bufCanonical
  have hbuf := bufCanonical_effect hpass hs.bufCanonical
  cases hd : isDigestCommand i with
  | true =>
    obtain rfl := hi hd
    refine ⟨?_, hbuf⟩
    simp [effectOf, hpass, hs.ctx0]
  | false =>
    have hne : i ≠ .mdUpdate := by
      rintro rfl
      cases hd
    exact digestOpen_of_no_snapshot hs (by simp [hne]) (effectOf_ctx0_of_other hd s) hbuf

/-- A word written to CMD that may stand inside a digest absorbs its snapshot. -/
theorem digestOpen_of_startCommand {w : Word} (hs : DigestOpen c s) (hw : mayInterleave (.writeReg 0 w) = true)
    (h : startCommand w s = .next t) : DigestOpen (ctxAbsorb c (snapshotOf s (.writeReg 0 w))) t := by
  obtain ⟨i, hd, hexec⟩ | ⟨e, hd, rfl⟩ := startCommand_cases h
  · obtain rfl := eq_encode_of_decode hd
    refine digestOpen_of_exec hs (fun hi => ?_) hexec
    cases i
    case mdUpdate => rfl
    case mdInit | mdFinal | mdAbort => exact absurd hw (by decide)
    all_goals cases hi
  · exact digestOpen_of_no_snapshot hs (snapshotOf_of_error hd) rfl hs.bufCanonical

/-- A host access that may stand inside a digest absorbs its snapshot. -/
theorem digestOpen_of_hostAccess {a : HostAccess} (hs : DigestOpen c s) (ha : mayInterleave a = true)
    (h : hostAccess a s = .next t) : DigestOpen (ctxAbsorb c (snapshotOf s a)) t := by
  obtain ⟨offset, v, rfl, -, hw⟩ | ⟨_, rfl, -, rfl⟩ | ⟨addr, data, rfl, -, rfl⟩ | ⟨_, _, rfl, -, rfl⟩ | ⟨rfl, -⟩ :=
    hostAccess_cases h
  · by_cases ho : offset = 0
    · subst ho
      exact digestOpen_of_startCommand hs ha hw
    · obtain ⟨h0, -⟩ | ⟨-, rfl⟩ | ⟨_, -, -, -, rfl⟩ | ⟨-, rfl⟩ := writeOffset_cases hw
      · exact absurd h0 ho
      all_goals exact digestOpen_of_no_snapshot hs (snapshotOf_of_offset_ne ho) rfl hs.bufCanonical
  · exact digestOpen_of_no_snapshot hs rfl rfl hs.bufCanonical
  · exact digestOpen_of_no_snapshot hs rfl rfl (wf_writeBytes addr data hs.bufCanonical)
  · exact digestOpen_of_no_snapshot hs rfl rfl hs.bufCanonical
  · cases ha

/-- The accesses between MD_INIT and MD_FINAL absorb their snapshots, and the run goes on from the access after them. -/
theorem digestOpen_of_run {mid rest : List HostAccess} {n : Nat} (hs : DigestOpen c s)
    (hp : s.host.pending = mid ++ rest) (hmid : mid.all mayInterleave = true) (h : RunsTo (mid.length + n) s t) :
    ∃ u, RunsTo n u t ∧ DigestOpen (ctxAbsorb c (snapshots mid.length s)) u ∧ u.host.pending = rest := by
  induction mid generalizing c s with
  | nil =>
    rw [List.length_nil, Nat.zero_add] at h
    exact ⟨s, h, hs, hp⟩
  | cons a mid ih =>
    rw [List.length_cons, Nat.add_right_comm] at h
    obtain ⟨v, hstep, hrun⟩ := h
    obtain ⟨-, hpending⟩ := step_params_pending hstep
    obtain ⟨ha, hmid⟩ : mayInterleave a = true ∧ mid.all mayInterleave = true := by simpa using hmid
    have hv : DigestOpen (ctxAbsorb c (snapshotOf s a)) v :=
      digestOpen_of_hostAccess (s := s.accepting (mid ++ rest)) ⟨hs.ctx0, hs.bufCanonical⟩ ha
        (step_of_pending hp ▸ hstep)
    have hsnap : snapshots (mid.length + 1) s = snapshotOf s a ++ snapshots mid.length v := by
      simp [snapshots, hp, hstep]
    rw [List.length_cons, hsnap, ctxAbsorb_append]
    exact ih hv (by rw [hpending, hp]; rfl) hmid hrun

/-- A write of MD_INIT opens a digest. -/
theorem digestOpen_of_mdInit {rest : List HostAccess} (hw : s.buf.wf = true)
    (hp : s.host.pending = .writeReg 0 (encode .mdInit) :: rest) (h : step s = .next t) : DigestOpen ctxNew t := by
  rw [step_of_wr_cmd rfl hp] at h
  cases h
  exact ⟨rfl, hw⟩

/-- A write of MD_FINAL that ends OK delivers the digest and closes CTX0. -/
theorem mdFinal_of_digestOpen {rest : List HostAccess} (hs : DigestOpen c s)
    (hp : s.host.pending = .writeReg 0 (encode .mdFinal) :: rest) (h : step s = .next t) (hok : t.status.code = .ok) :
    memRead t t.regs.dst.toNat 16 = ctxFinish c ∧ t.ctx0 = Ctx0.wiped ∧ t.host.pending = rest := by
  rw [step_of_writeCmd hp, startCommand_of_decode _ (decode_encode .mdFinal)] at h
  obtain ⟨code, hfail, rfl⟩ | ⟨-, rfl⟩ := exec_cases h
  · obtain rfl : code = .ok := hok
    exact absurd (refusal_of_firstFailure hfail) (by decide)
  · refine ⟨?_, rfl, rfl⟩
    have hread := memRead_mdFinalEffect (s := s.accepting rest) hs.bufCanonical
    rwa [accepting_ctx0, hs.ctx0] at hread

end

/-- Settles O35: MD_INIT opens a digest, each access until MD_FINAL absorbs its snapshot, and MD_FINAL delivers it. -/
theorem commandSequenceLaw : Obligations.CommandSequenceLaw := by
  unfold Obligations.CommandSequenceLaw
  intro s s1 t mid rest hw hp hmid hinit hrun hok
  obtain ⟨u, hu, hrest⟩ := hrun
  obtain rfl : s1 = u := Host.Outcome.next.inj (hinit.symm.trans hu)
  obtain ⟨-, hpending⟩ := step_params_pending hinit
  obtain ⟨v, ⟨w, hfinal, rfl⟩, hopen, hv⟩ :=
    digestOpen_of_run (digestOpen_of_mdInit hw hp hinit) (by rw [hpending, hp]; rfl) hmid hrest
  exact mdFinal_of_digestOpen hopen hv hfinal hok

end Sys2Proof.Machine
end

/-! ### The stream cipher engine -/

section
namespace Sys2Proof.Machine

/-! #### The laws of SC -/

/-- SC is the keystream of the scheduled table masking the data, both indices at 0 (R89, R90). -/
theorem sc_eq_prgaFrom (key data : Bytes) : sc key data = prgaFrom ⟨ksa key, 0, 0⟩ data := rfl

/-- The keystream is what zeros are masked to, and the data play no part in it. -/
theorem prgaFrom_eq_xorBytes (g : PrgaState) (data : Bytes) :
    prgaFrom g data = xorBytes data (prgaFrom g (zeros data.length)) := by
  induction data generalizing g with
  | nil => rfl
  | cons x xs ih =>
    have hzeros : zeros (x :: xs).length = 0 :: zeros xs.length := rfl
    rw [hzeros, prgaFrom_cons, prgaFrom_cons, ih]
    simp [xorBytes]

/-- Masked twice from the same keystream state, the data are back. -/
theorem prgaFrom_prgaFrom (g : PrgaState) (data : Bytes) : prgaFrom g (prgaFrom g data) = data := by
  induction data generalizing g with
  | nil => rfl
  | cons x xs ih => simp [ih]

/-- A byte is masked before any later byte is looked at. -/
theorem take_prgaFrom (g : PrgaState) (data : Bytes) (n : Nat) :
    (prgaFrom g data).take n = prgaFrom g (data.take n) := by
  induction data generalizing g n with
  | nil => simp
  | cons x xs ih =>
    cases n with
    | zero => rfl
    | succ n => simp [ih]

/-- SC with one key is its own inverse (R91 b). -/
theorem sc_sc (key data : Bytes) : sc key (sc key data) = data := prgaFrom_prgaFrom ..

/-- A swap takes a permutation of 0..255 to one. -/
theorem swap_perm_identity {p : Perm} (i j : Byte) (h : p.Perm Perm.identity) :
    (p.swap i j).Perm Perm.identity :=
  (swap_perm i j (h.length_eq.trans identity_length)).trans h

/-- The table is a permutation of 0..255 after every step of the key schedule. -/
theorem ksaSteps_perm_identity (key : Bytes) (n : Nat) : (ksaSteps key n).p.Perm Perm.identity := by
  induction n with
  | zero => exact .refl _
  | succ n ih =>
    rw [ksaSteps_succ]
    exact swap_perm_identity _ _ ih

/-- The table the keystream starts from is a permutation of 0..255. -/
theorem ksa_perm_identity (key : Bytes) : (ksa key).Perm Perm.identity := ksaSteps_perm_identity ..

/-- The table stays a permutation of 0..255 over any number of steps of the keystream. -/
theorem prgaStep_iterate_perm_identity {p : Perm} (a b : Byte) (h : p.Perm Perm.identity) (n : Nat) :
    (prgaStep^[n] ⟨p, a, b⟩).p.Perm Perm.identity := by
  induction n with
  | zero => exact h
  | succ n ih =>
    rw [Function.iterate_succ_apply']
    exact swap_perm_identity _ _ ih

/-- Settles O37: the laws of the keystream from the scheduled table, and the permutation kept by every swap. -/
theorem streamCipherLaws : Obligations.StreamCipherLaws := by
  unfold Obligations.StreamCipherLaws
  exact ⟨fun _ _ => prgaFrom_eq_xorBytes .., sc_sc, fun _ _ _ => take_prgaFrom ..,
    fun key n => ⟨ksaSteps_perm_identity key n, prgaStep_iterate_perm_identity 0 0 (ksa_perm_identity key) n⟩⟩

/-! #### The bytes of the key that matter -/

/-- The key byte step i of the schedule adds: `key[i mod n]` (R88). -/
abbrev scheduleByte (key : Bytes) (i : Nat) : Byte := key.getD (i % key.length) 0

/-- A step of the schedule looks at one byte of the key. -/
theorem ksaStep_congr {key key' : Bytes} {i : Nat} (k : KsaState) (h : scheduleByte key i = scheduleByte key' i) :
    ksaStep key k i = ksaStep key' k i := by
  simp only [ksaStep, h]

/-- Keys that give the first n steps the same bytes schedule alike. -/
theorem ksaSteps_congr {key key' : Bytes} {n : Nat} (h : ∀ i < n, scheduleByte key i = scheduleByte key' i) :
    ksaSteps key n = ksaSteps key' n := by
  induction n with
  | zero => rfl
  | succ n ih =>
    rw [ksaSteps_succ, ksaSteps_succ, ih fun i hi => h i (by omega), ksaStep_congr _ (h n (by omega))]

/-- Keys that give the 256 steps of the schedule the same bytes mask alike. -/
theorem sc_congr {key key' : Bytes} (data : Bytes) (h : ∀ i < 256, scheduleByte key i = scheduleByte key' i) :
    sc key data = sc key' data := by
  have hksa : ksa key = ksa key' := congrArg KsaState.p (ksaSteps_congr h)
  rw [sc_eq_prgaFrom, sc_eq_prgaFrom, hksa]

/-- The first m bytes of a key give the first m steps their bytes: of a longer key they are read without reuse. -/
theorem scheduleByte_take {m i : Nat} (key : Bytes) (hi : i < m) : scheduleByte (key.take m) i = scheduleByte key i := by
  by_cases hlen : key.length ≤ m
  · rw [List.take_of_length_le hlen]
  · have htake : (key.take m).length = m := List.length_take_of_le (by omega)
    have hmod : i % m = i := Nat.mod_eq_of_lt hi
    have hmod' : i % key.length = i := Nat.mod_eq_of_lt (by omega)
    simp only [scheduleByte, htake, hmod, hmod', List.getD_eq_getElem?_getD, List.getElem?_take_of_lt hi]

/-- A key written twice gives every step the byte the key gives it. -/
theorem scheduleByte_append_self (key : Bytes) (i : Nat) : scheduleByte (key ++ key) i = scheduleByte key i := by
  obtain rfl | hne := eq_or_ne key []
  · rfl
  have hpos : 0 < key.length := List.length_pos_iff.2 hne
  have hlt : i % (key.length + key.length) < key.length + key.length := Nat.mod_lt _ (by omega)
  have hmod : i % (key.length + key.length) % key.length = i % key.length := Nat.mod_mod_of_dvd _ ⟨2, by omega⟩
  simp only [scheduleByte, List.length_append, ← hmod]
  generalize i % (key.length + key.length) = m at hlt
  by_cases hfirst : m < key.length
  · rw [List.getD_append _ _ _ _ hfirst, Nat.mod_eq_of_lt hfirst]
  · rw [List.getD_append_right _ _ _ _ (by omega), Nat.mod_eq_sub_mod (by omega), Nat.mod_eq_of_lt (by omega)]

/-- Settles O38: the schedule's 256 steps are given the same bytes. -/
theorem streamKeyIsCyclicAndBounded : Obligations.StreamKeyIsCyclicAndBounded := by
  unfold Obligations.StreamKeyIsCyclicAndBounded
  exact ⟨fun key data => sc_congr data fun _ hi => (scheduleByte_take key hi).symm,
    fun key data => sc_congr data fun i _ => scheduleByte_append_self key i⟩

/-! #### SC_APPLY -/

/-- What SC_APPLY checks (R92): the key's length, the three ranges, and that source and destination are empty, identical
or disjoint. -/
structure ScApplyAllowed (s : State) : Prop where
  klenPos : 1 ≤ s.regs.klen.toNat
  klenLe : s.regs.klen.toNat ≤ 256
  key : RangeOk s (s.regs.key.toNat, s.regs.klen.toNat)
  src : RangeOk s (s.regs.src.toNat, s.regs.len.toNat)
  dst : RangeOk s (s.regs.dst.toNat, s.regs.len.toNat)
  overlap : s.regs.len = 0 ∨ s.regs.src = s.regs.dst ∨ s.regs.src.toNat + s.regs.len.toNat ≤ s.regs.dst.toNat ∨
    s.regs.dst.toNat + s.regs.len.toNat ≤ s.regs.src.toNat

/-- What is kept includes BUF_SIZE, which decides the ranges inside BUF. -/
theorem rangeOk_of_kept {s t : State} {r : Nat × Nat} (hk : Kept s t) (h : RangeOk s r) : RangeOk t r := by
  rwa [RangeOk, hk.params]

/-- The checks depend on the operand registers and the parameters only. -/
theorem ScApplyAllowed.of_kept {s t : State} (h : ScApplyAllowed s) (hk : Kept s t) : ScApplyAllowed t where
  klenPos := hk.regs ▸ h.klenPos
  klenLe := hk.regs ▸ h.klenLe
  key := hk.regs ▸ rangeOk_of_kept hk h.key
  src := hk.regs ▸ rangeOk_of_kept hk h.src
  dst := hk.regs ▸ rangeOk_of_kept hk h.dst
  overlap := hk.regs ▸ h.overlap

section
variable {s : State}

/-- The check of the key's length as the statements say it (R92). -/
theorem klenCheck_iff : (decide (1 ≤ klenCount s) && decide (klenCount s ≤ 256)) = true ↔
    1 ≤ s.regs.klen.toNat ∧ s.regs.klen.toNat ≤ 256 := by
  rw [Bool.and_eq_true, decide_eq_true_iff, decide_eq_true_iff]
  rfl

/-- The check of the three ranges as the statements say it (R92). -/
theorem rangesCheck_iff : (keyValid s (klenCount s) && sourceValid s && destValid s (lenCount s)) = true ↔
    RangeOk s (s.regs.key.toNat, s.regs.klen.toNat) ∧ RangeOk s (s.regs.src.toNat, s.regs.len.toNat) ∧
      RangeOk s (s.regs.dst.toNat, s.regs.len.toNat) := by
  rw [Bool.and_eq_true, Bool.and_eq_true, and_assoc]
  exact and_congr keyValid_iff (and_congr sourceValid_iff destValid_iff)

/-- When its checks hold SC_APPLY has its effect. -/
theorem exec_scApply_of_allowed (h : ScApplyAllowed s) : exec .scApply s = .next (scApplyEffect s) := by
  have hklen := klenCheck_iff.2 ⟨h.klenPos, h.klenLe⟩
  have hranges := rangesCheck_iff.2 ⟨h.key, h.src, h.dst⟩
  have hoverlap := overlapAllowed_iff.2 h.overlap
  exact exec_of_pass (by simp only [checksOf, firstFailure_cons, hklen, hranges, hoverlap, if_true, firstFailure_nil])

/-- A key of no bytes or of more than 256 is refused with BAD_LEN, whatever the ranges (R149). -/
theorem exec_scApply_of_klen (h : ¬ (1 ≤ s.regs.klen.toNat ∧ s.regs.klen.toNat ≤ 256)) :
    ∃ t, exec .scApply s = .next t ∧ RefusedWith .badLen s t := by
  have hklen := mt klenCheck_iff.1 h
  exact ⟨_, exec_of_fail (by simp only [checksOf, firstFailure_cons, if_neg hklen]), refusedWith_finish s (by decide)⟩

/-- With a legal key length a bad range or a partial overlap is refused with BAD_ADDR (R146). -/
theorem exec_scApply_of_addr (hpos : 1 ≤ s.regs.klen.toNat) (hle : s.regs.klen.toNat ≤ 256)
    (h : ¬ ScApplyAllowed s) : ∃ t, exec .scApply s = .next t ∧ RefusedWith .badAddr s t := by
  have hklen := klenCheck_iff.2 ⟨hpos, hle⟩
  suffices hfail : firstFailure (checksOf .scApply s) = some .badAddr from
    ⟨_, exec_of_fail hfail, refusedWith_finish s (by decide)⟩
  simp only [checksOf, firstFailure_cons, if_pos hklen]
  split
  case isFalse => rfl
  case isTrue hranges =>
    obtain ⟨hkey, hsrc, hdst⟩ := rangesCheck_iff.1 hranges
    exact if_neg fun hov => h ⟨hpos, hle, hkey, hsrc, hdst, overlapAllowed_iff.1 hov⟩

/-- STATUS after SC_APPLY has its effect. -/
theorem scApplyEffect_status (s : State) : (scApplyEffect s).status = ⟨.ok, s.status.sticky⟩ := after_ok s.status

/-- The masked source is read back at DST. -/
theorem memRead_scApplyEffect (hw : s.buf.wf = true) :
    memRead (scApplyEffect s) s.regs.dst.toNat s.regs.len.toNat = sc (streamKeyBytes s) (sourceBytes s) :=
  memRead_memWrite_same hw (by rw [sc_length, sourceBytes_length]; rfl)

/-- Bytes outside the LEN at DST read as before. -/
theorem bufKeptOutside_scApplyEffect (s : State) :
    BufKeptOutside s (scApplyEffect s) s.regs.dst.toNat s.regs.len.toNat := fun a ha => by
  rw [scApplyEffect_buf]
  exact read_writeBytes_outside (by rwa [sc_length, sourceBytes_length])

/-- SC_APPLY's effect keeps BUF canonical. -/
theorem scApplyEffect_buf_wf (hw : s.buf.wf = true) : (scApplyEffect s).buf.wf = true := by
  rw [scApplyEffect_buf]
  exact wf_writeBytes _ _ hw

end

/-- Settles O39: the checks decide between the effect and the two refusals. -/
theorem scApplyMasksTheSource : Obligations.ScApplyMasksTheSource := by
  unfold Obligations.ScApplyMasksTheSource
  refine ⟨fun s hw hpos hle hkey hsrc hdst hov => ?_, fun s hklen => exec_scApply_of_klen (by omega),
    fun s hpos hle hbad => exec_scApply_of_addr hpos hle fun hok => ?_⟩
  · have hexec := exec_scApply_of_allowed ⟨hpos, hle, hkey, hsrc, hdst, hov⟩
    exact ⟨_, hexec, memRead_scApplyEffect hw, bufKeptOutside_scApplyEffect s, scApplyEffect_ctx0 s,
      endsWith_effect .scApply s, kept_of_exec hexec⟩
  · obtain ⟨-, -, hkey, hsrc, hdst, hov⟩ := hok
    rcases hbad with hbad | hbad | hbad | ⟨hne, hlo, hhi⟩
    · exact hbad hkey
    · exact hbad hsrc
    · exact hbad hdst
    · rcases hov with hzero | heq | hdisjoint
      · have hlen : s.regs.len.toNat = 0 := by rw [hzero]; rfl
        omega
      · exact hne heq
      · omega

/-! #### SC_APPLY twice in place -/

/-- Two memories that read alike over a range have the same bytes there. -/
theorem read_eq_of_readBytes_eq {m m' : Memory} {addr n k : Nat} (h : m.readBytes addr n = m'.readBytes addr n)
    (hk : k < n) : m.read (addr + k) = m'.read (addr + k) :=
  List.map_inj_left.1 h k (List.mem_range.2 hk)

/-- Canonical BUFs with the same bytes in a range and outside it are equal. -/
theorem buf_eq_of_memRead_eq {s t : State} {addr n : Nat} (hs : s.buf.wf = true) (ht : t.buf.wf = true)
    (hin : memRead t addr n = memRead s addr n) (hout : BufKeptOutside s t addr n) : t.buf = s.buf := by
  refine wf_ext ht hs fun a => ?_
  by_cases ha : Outside a addr n
  · exact hout a ha
  · obtain ⟨k, rfl⟩ := Nat.exists_eq_add_of_le (show addr ≤ a by omega)
    exact read_eq_of_readBytes_eq hin (by omega)

/-- A key that lies outside the LEN bytes at DST is not written over. -/
theorem streamKeyBytes_scApplyEffect {s : State}
    (h : s.regs.key.toNat + s.regs.klen.toNat ≤ s.regs.dst.toNat ∨
      s.regs.dst.toNat + s.regs.len.toNat ≤ s.regs.key.toNat) :
    streamKeyBytes (scApplyEffect s) = streamKeyBytes s :=
  memRead_memWrite_disjoint (by rwa [sc_length, sourceBytes_length])

/-- In place, the source of a second SC_APPLY is what the first has masked. -/
theorem sourceBytes_scApplyEffect {s : State} (hw : s.buf.wf = true) (hd : s.regs.dst = s.regs.src) :
    sourceBytes (scApplyEffect s) = sc (streamKeyBytes s) (sourceBytes s) := by
  rw [← memRead_scApplyEffect hw, hd]
  rfl

/-- In place and with the key outside the buffer, two effects of SC_APPLY leave BUF as it was (R91 b, R92). -/
theorem scApplyEffect_scApplyEffect_buf {s : State} (hw : s.buf.wf = true) (hd : s.regs.dst = s.regs.src)
    (hkey : s.regs.key.toNat + s.regs.klen.toNat ≤ s.regs.dst.toNat ∨
      s.regs.dst.toNat + s.regs.len.toNat ≤ s.regs.key.toNat) :
    (scApplyEffect (scApplyEffect s)).buf = s.buf := by
  have hw' := scApplyEffect_buf_wf hw
  refine buf_eq_of_memRead_eq (addr := s.regs.dst.toNat) (n := s.regs.len.toNat) hw (scApplyEffect_buf_wf hw') ?_
    fun a ha => ?_
  · calc memRead (scApplyEffect (scApplyEffect s)) s.regs.dst.toNat s.regs.len.toNat
        = sc (streamKeyBytes (scApplyEffect s)) (sourceBytes (scApplyEffect s)) := memRead_scApplyEffect hw'
      _ = sourceBytes s := by rw [streamKeyBytes_scApplyEffect hkey, sourceBytes_scApplyEffect hw hd, sc_sc]
      _ = memRead s s.regs.dst.toNat s.regs.len.toNat := by rw [hd]; rfl
  · exact (bufKeptOutside_scApplyEffect (scApplyEffect s) a ha).trans (bufKeptOutside_scApplyEffect s a ha)

/-- Settles O40: the checks hold both times, and the second effect undoes the first. -/
theorem scApplyTwiceInPlaceRestores : Obligations.ScApplyTwiceInPlaceRestores := by
  unfold Obligations.ScApplyTwiceInPlaceRestores
  intro s hw hpos hle hkey hsrc hd hout
  have hallowed : ScApplyAllowed s := ⟨hpos, hle, hkey, hsrc, hd ▸ hsrc, .inr (.inl hd.symm)⟩
  have hfirst := exec_scApply_of_allowed hallowed
  have hkept := kept_of_exec hfirst
  have hsecond := exec_scApply_of_allowed (hallowed.of_kept hkept)
  refine ⟨_, _, hfirst, hsecond, scApplyEffect_scApplyEffect_buf hw hd (hd ▸ hout), ?_, ?_, ?_⟩
  · rw [scApplyEffect_status, scApplyEffect_status]
  · rw [scApplyEffect_ctx0, scApplyEffect_ctx0]
  · obtain ⟨hregs, hparams, hhost⟩ := kept_of_exec hsecond
    exact ⟨hregs.trans hkept.regs, hparams.trans hkept.params, hhost.trans hkept.host⟩

end Sys2Proof.Machine
end

/-! ### The IV generator -/

section
namespace Sys2Proof.Machine

/-! #### One round of the recurrence -/

theorem lcgRem_eq (z : Int) : lcgRem z = z - 52774 * lcgQuot z := rfl

theorem lcgRaw_eq (z : Int) : lcgRaw z = 40692 * lcgRem z - 3791 * lcgQuot z := rfl

/-- Truncating division is odd, so the quotient of a negative state is that of its magnitude, negated (R98). -/
theorem lcgQuot_neg (z : Int) : lcgQuot (-z) = -lcgQuot z := Int.neg_tdiv z _

/-- The remainder takes the sign of the state (R98). -/
theorem lcgRem_neg (z : Int) : lcgRem (-z) = -lcgRem z := by
  rw [lcgRem_eq, lcgRem_eq, lcgQuot_neg]
  omega

/-- A round's unwrapped value is odd in the state. -/
theorem lcgRaw_neg (z : Int) : lcgRaw (-z) = -lcgRaw z := by
  rw [lcgRaw_eq, lcgRaw_eq, lcgQuot_neg, lcgRem_neg]
  omega

/-- On a state that is not negative the quotient of R98 is that of Euclidean division. -/
theorem lcgQuot_of_nonneg {z : Int} (h : 0 ≤ z) : lcgQuot z = z / 52774 := Int.tdiv_eq_ediv_of_nonneg h

section
variable {z : Int}

/-- R102 for a state that is not negative. 2^31 is included: it is the magnitude of the least s32 state. -/
theorem lcgRound_bounds_of_nonneg (hl : 0 ≤ z) (hu : z ≤ 2 ^ 31) :
    0 ≤ lcgRem z ∧ lcgRem z ≤ 52773 ∧ 0 ≤ lcgQuot z ∧ lcgQuot z ≤ 40692 ∧
      -154263372 ≤ lcgRaw z ∧ lcgRaw z ≤ 2147438916 := by
  rw [lcgRaw_eq, lcgRem_eq, lcgQuot_of_nonneg hl]
  omega

/-- R102 for a negative state: the bounds of its magnitude, mirrored. -/
theorem lcgRound_bounds_of_neg (hl : -2 ^ 31 ≤ z) (hu : z < 0) :
    -52773 ≤ lcgRem z ∧ lcgRem z ≤ 0 ∧ -40692 ≤ lcgQuot z ∧ lcgQuot z ≤ 0 ∧
      -2147438916 ≤ lcgRaw z ∧ lcgRaw z ≤ 154263372 := by
  have h := lcgRound_bounds_of_nonneg (z := -z) (by omega) (by omega)
  rw [lcgRem_neg, lcgQuot_neg, lcgRaw_neg] at h
  omega

/-- No s32 state takes a round's unwrapped value further from 0 than 40692 * 52773. -/
theorem lcgRaw_bounds (hl : -2 ^ 31 ≤ z) (hu : z < 2 ^ 31) : -2147438916 ≤ lcgRaw z ∧ lcgRaw z ≤ 2147438916 := by
  rcases Int.lt_or_le z 0 with hneg | hpos
  · have := lcgRound_bounds_of_neg hl hneg
    omega
  · have := lcgRound_bounds_of_nonneg hpos hu.le
    omega

/-- Neither wrap of a round changes anything: its value, and that value plus LCG_M when negative, are s32 (R102). -/
theorem lcgStep_eq (hl : -2 ^ 31 ≤ z) (hu : z < 2 ^ 31) :
    lcgStep z = if lcgRaw z < 0 then lcgRaw z + 2147483399 else lcgRaw z := by
  obtain ⟨hlo, hhi⟩ := lcgRaw_bounds hl hu
  rw [lcgStep, wrapS32_of_mem (n := lcgRaw z) (by omega) (by omega)]
  split
  case isTrue hneg => exact wrapS32_of_mem (n := lcgRaw z + 2147483399) (by omega) (by omega)
  case isFalse => rfl

/-- A round leads every s32 state into 0..2147483398 (R102). -/
theorem lcgStep_bounds (hl : -2 ^ 31 ≤ z) (hu : z < 2 ^ 31) : 0 ≤ lcgStep z ∧ lcgStep z ≤ 2147483398 := by
  obtain ⟨hlo, hhi⟩ := lcgRaw_bounds hl hu
  rw [lcgStep_eq hl hu]
  split <;> omega

end

/-- The addition to the seed wraps for the greatest s32 only (R97). -/
theorem lcgInit_eq {seed : Int} (hl : -2 ^ 31 ≤ seed) (hu : seed < 2 ^ 31) :
    lcgInit seed = if seed = 2147483647 then -2147483648 else seed + 1 := by
  split
  case isTrue h =>
    subst h
    decide
  case isFalse h => exact wrapS32_of_mem (by omega) (by omega)

/-- The initial state is an s32, whatever the seed. -/
theorem lcgInit_mem_s32 (seed : Int) : -2 ^ 31 ≤ lcgInit seed ∧ lcgInit seed < 2 ^ 31 :=
  ⟨BitVec.le_toInt _, BitVec.toInt_lt⟩

/-- Settles O41: the bounds by the sign of the state, and from them that no wrap takes place. -/
theorem recurrenceNeverOverflows : Obligations.RecurrenceNeverOverflows := by
  unfold Obligations.RecurrenceNeverOverflows
  refine ⟨fun z hl hu => ?_, fun seed => lcgInit_eq, by decide⟩
  obtain ⟨hlo, hhi⟩ := lcgStep_bounds hl hu
  exact ⟨fun hz => lcgRound_bounds_of_nonneg hz hu.le, lcgRound_bounds_of_neg hl, lcgStep_eq hl hu, hlo, hhi⟩

/-! #### The scratch key -/

/-- Rounds keep an s32 state an s32. -/
theorem lcgStep_iterate_mem_s32 {z : Int} (hl : -2 ^ 31 ≤ z) (hu : z < 2 ^ 31) (n : Nat) :
    -2 ^ 31 ≤ lcgStep^[n] z ∧ lcgStep^[n] z < 2 ^ 31 := by
  induction n with
  | zero => exact ⟨hl, hu⟩
  | succ n ih =>
    have := lcgStep_bounds ih.1 ih.2
    rw [Function.iterate_succ_apply']
    omega

/-- After at least one round the state is in 0..2147483398. -/
theorem lcgStep_iterate_bounds {z : Int} (hl : -2 ^ 31 ≤ z) (hu : z < 2 ^ 31) {j : Nat} (hj : 1 ≤ j) :
    0 ≤ lcgStep^[j] z ∧ lcgStep^[j] z ≤ 2147483398 := by
  obtain ⟨n, rfl⟩ := Nat.exists_eq_add_of_le' hj
  obtain ⟨hlo, hhi⟩ := lcgStep_iterate_mem_s32 hl hu n
  rw [Function.iterate_succ_apply']
  exact lcgStep_bounds hlo hhi

/-- `as_u32` leaves a u32 as it is (R7). -/
theorem toNat_asU32 {v : Int} (hl : 0 ≤ v) (hu : v < 2 ^ 32) : ((asU32 v).toNat : Int) = v := by
  rw [asU32, BitVec.toNat_ofInt]
  omega

/-- The top byte of a little-endian word below 2^31. -/
theorem le32_top_toNat_le {w : Word} (h : w.toNat < 2 ^ 31) : ∀ b ∈ (le32 w)[3]?, b.toNat ≤ 0x7F := by
  intro b hb
  obtain rfl : w.extractLsb' 24 8 = b := Option.some.inj hb
  rw [BitVec.extractLsb'_toNat, Nat.shiftRight_eq_div_pow]
  omega

/-- Four bytes are emitted per round. -/
@[simp] theorem lcgEmit_length (n : Nat) (z : Int) : (lcgEmit n z).length = 4 * n := by
  induction n generalizing z with
  | zero => rfl
  | succ n ih =>
    rw [lcgEmit, List.length_append, ih, le32_length]
    omega

/-- The last byte a round emits is the top byte of the state after the round. -/
theorem lcgEmit_getElem?_top {n j : Nat} (hj : j < n) (z : Int) :
    (lcgEmit n z)[4 * j + 3]? = (le32 (asU32 (lcgStep^[j + 1] z)))[3]? := by
  induction n generalizing j z with
  | zero => exact absurd hj (Nat.not_lt_zero j)
  | succ n ih =>
    cases j with
    | zero => rfl
    | succ j =>
      calc (le32 (asU32 (lcgStep z)) ++ lcgEmit n (lcgStep z))[4 * (j + 1) + 3]?
          = (lcgEmit n (lcgStep z))[4 * j + 3]? := List.getElem?_append_right (by rw [le32_length]; omega)
        _ = (le32 (asU32 (lcgStep^[j + 1 + 1] z)))[3]? := ih (by omega) (lcgStep z)

/-- A scratch key has 16 bytes (R99). -/
@[simp] theorem scratchKey_length (seed : Int) : (scratchKey seed).length = 16 := lcgEmit_length _ _

/-- The scratch key is what the four rounds emit, one state after the other (R99). -/
theorem scratchKey_eq (seed : Int) :
    scratchKey seed =
      le32 (asU32 (lcgStep (lcgInit seed))) ++ le32 (asU32 (lcgStep^[2] (lcgInit seed))) ++
      le32 (asU32 (lcgStep^[3] (lcgInit seed))) ++ le32 (asU32 (lcgStep^[4] (lcgInit seed))) := by
  simp only [scratchKey, lcgEmit, Function.iterate_succ_apply, Function.iterate_zero_apply, List.append_assoc,
    List.append_nil]

/-- Settles O42: the states after one round and more are below 2^31, which bounds their top bytes. -/
theorem scratchKeyIsTheFourStates : Obligations.ScratchKeyIsTheFourStates := by
  unfold Obligations.ScratchKeyIsTheFourStates
  intro seed _ _
  refine ⟨scratchKey_eq seed, fun j hpos hle => ?_, scratchKey_length seed, ivgen_length seed⟩
  obtain ⟨hl, hu⟩ := lcgInit_mem_s32 seed
  obtain ⟨hlo, hhi⟩ := lcgStep_iterate_bounds hl hu hpos
  have hu32 := toNat_asU32 hlo (by omega)
  obtain ⟨n, rfl⟩ := Nat.exists_eq_add_of_le' hpos
  refine ⟨hu32, fun b hb => le32_top_toNat_le (w := asU32 (lcgStep^[n + 1] (lcgInit seed))) (by omega) b ?_⟩
  rwa [← lcgEmit_getElem?_top (show n < 4 by omega)]

/-! #### IV_GEN -/

/-- Seed -1 starts the recurrence at 0, which every round leaves: the corner of R101. -/
theorem scratchKey_neg_one : scratchKey (-1) = zeros 16 := by decide

section
variable {s : State}

/-- With its destination inside BUF IV_GEN has its effect. -/
theorem exec_ivGen_of_rangeOk (hr : RangeOk s (s.regs.dst.toNat, 16)) : exec .ivGen s = .next (ivGenEffect s) :=
  exec_of_pass (i := .ivGen) (if_pos (destValid_iff.2 hr))

/-- With a destination not inside BUF IV_GEN is refused with BAD_ADDR (R146). -/
theorem exec_ivGen_of_not_rangeOk (hr : ¬ RangeOk s (s.regs.dst.toNat, 16)) :
    ∃ t, exec .ivGen s = .next t ∧ RefusedWith .badAddr s t :=
  ⟨_, exec_of_fail (if_neg (mt destValid_iff.1 hr)), refusedWith_finish s (by decide)⟩

/-- The IV of the signed reading of PARAM is read back at DST. -/
theorem memRead_ivGenEffect (hw : s.buf.wf = true) :
    memRead (ivGenEffect s) s.regs.dst.toNat 16 = ivgen s.regs.param.toInt :=
  memRead_memWrite_same hw (ivgen_length _)

end

/-- Settles O43: the range check decides between the effect, which writes the IV at DST, and the refusal. -/
theorem ivGenWritesTheIv : Obligations.IvGenWritesTheIv := by
  unfold Obligations.IvGenWritesTheIv
  refine ⟨fun s hw hr => ?_, fun s => exec_ivGen_of_not_rangeOk⟩
  have hexec := exec_ivGen_of_rangeOk hr
  have hread := memRead_ivGenEffect hw
  refine ⟨_, hexec, hread, fun hparam => ?_, commandsWriteOnlyTheirRange _ _ _ hexec, ivGenEffect_ctx0 s,
    endsWith_effect .ivGen s, kept_of_exec hexec⟩
  have hseed : s.regs.param.toInt = -1 := by rw [hparam]; rfl
  rw [hread, hseed, ivgen, scratchKey_neg_one]

end Sys2Proof.Machine
end

/-! ### Key derivation -/

section
namespace Sys2Proof.Machine

/-! #### The padded password -/

/-- The model's PADPW, with PAD as the parameter it is (R106, R107). -/
theorem padPw_eq (p : Params) (pw : Bytes) : padPw p pw = pw.take 32 ++ p.pad.toList.take (32 - pw.length) := rfl

@[simp] theorem padPw_length (p : Params) (pw : Bytes) : (padPw p pw).length = 32 := by
  simp only [padPw_eq, List.length_append, List.length_take, Vector.length_toList]
  omega

/-- Of a password that has them, PADPW is the first 32 bytes, and PAD plays no part. -/
theorem padPw_of_le_length {p : Params} {pw : Bytes} (h : 32 ≤ pw.length) : padPw p pw = pw.take 32 := by
  rw [padPw_eq, Nat.sub_eq_zero_of_le h, List.take_zero, List.append_nil]

@[simp] theorem padPw_nil (p : Params) : padPw p [] = p.pad.toList := by
  rw [padPw_eq, List.take_nil, List.nil_append]
  exact List.take_of_length_le (by simp)

/-- Padding twice is padding once. -/
@[simp] theorem padPw_padPw (p : Params) (pw : Bytes) : padPw p (padPw p pw) = padPw p pw := by
  rw [padPw_of_le_length (padPw_length p pw).ge, List.take_of_length_le (padPw_length p pw).le]

/-- PADPW byte by byte: the password's where it has one, then PAD from its first byte on. -/
theorem padPw_getElem? (p : Params) (pw : Bytes) {k : Nat} (hk : k < 32) :
    (padPw p pw)[k]? = if k < pw.length then pw[k]? else p.pad.toList[k - min pw.length 32]? := by
  have hlen : (pw.take 32).length = min pw.length 32 := by rw [List.length_take, Nat.min_comm]
  rw [padPw_eq]
  split
  case isTrue hin => rw [List.getElem?_append_left (by omega), List.getElem?_take_of_lt hk]
  case isFalse hout =>
    rw [List.getElem?_append_right (by omega), List.getElem?_take_of_lt (by omega), hlen]

/-- Settles O44: byte by byte, and the two corners are the empty password and the one of at least 32 bytes. -/
theorem paddedPasswordHas32Bytes : Obligations.PaddedPasswordHas32Bytes := by
  unfold Obligations.PaddedPasswordHas32Bytes
  refine fun p pw => ⟨padPw_length p pw, fun k => padPw_getElem? p pw, fun hnil => ?_, fun hlen => ?_,
    fun tail hle => ?_⟩
  · rw [hnil, padPw_nil]
  · rw [padPw_of_le_length hlen.ge, List.take_of_length_le hlen.le]
  · have hle' : 32 ≤ (pw ++ tail).length := by rw [List.length_append]; omega
    rw [padPw_of_le_length hle, padPw_of_le_length hle', List.take_append_of_le_length hle]

/-! #### The owner key and the base key -/

/-- KDF sees nothing of the password but its padded form (R110). -/
theorem kdf_congr {p : Params} {pw pw' : Bytes} (h : padPw p pw = padPw p pw') : kdf p pw = kdf p pw' := by
  simp only [kdf, h]

@[simp] theorem ownerVerification_length (p : Params) : (ownerVerification p).length = 16 :=
  iterateMd_length _ (md_length _)

@[simp] theorem ownerKeyPasses_zero (ov up : Bytes) : ownerKeyPasses ov up 0 = up := rfl

/-- One more pass masks the owner key so far, under that pass's key (R109). -/
theorem ownerKeyPasses_succ (ov up : Bytes) (n : Nat) :
    ownerKeyPasses ov up (n + 1) = sc (maskingKey ov n) (ownerKeyPasses ov up n) := by
  simp [ownerKeyPasses, List.range_succ]

/-- Every pass keeps the length, since SC does. -/
@[simp] theorem ownerKeyPasses_length (ov up : Bytes) (n : Nat) : (ownerKeyPasses ov up n).length = up.length := by
  induction n with
  | zero => rfl
  | succ n ih => rw [ownerKeyPasses_succ, sc_length, ih]

/-- Settles O46: the passes one at a time, each of them SC, which keeps the length. -/
theorem ownerKeyPassesKeepTheLength : Obligations.OwnerKeyPassesKeepTheLength := by
  unfold Obligations.OwnerKeyPassesKeepTheLength
  exact fun p up n => ⟨ownerVerification_length p, ownerKeyPasses_zero _ up, ownerKeyPasses_length _ up n,
    ownerKeyPasses_succ _ up n, rfl, kdf_length p⟩

/-! #### KDF_DERIVE -/

section
variable {s : State}

/-- The check of the password's range, then the check of the destination, as the statements say them (R111). -/
theorem firstFailure_kdfDerive : firstFailure (checksOf .kdfDerive s) =
    if RangeOk s (s.regs.src.toNat, min s.regs.len.toNat 32) ∧ RangeOk s (s.regs.dst.toNat, 16) then none
    else some .badAddr := by
  simp only [checksOf, firstFailure_cons, firstFailure_nil, passwordValid_iff, destValid_iff, ite_and]

/-- With both ranges inside BUF KDF_DERIVE has its effect. -/
theorem exec_kdfDerive_of_rangeOk (hsrc : RangeOk s (s.regs.src.toNat, min s.regs.len.toNat 32))
    (hdst : RangeOk s (s.regs.dst.toNat, 16)) : exec .kdfDerive s = .next (kdfDeriveEffect s) :=
  exec_of_pass (i := .kdfDerive) (firstFailure_kdfDerive.trans (if_pos ⟨hsrc, hdst⟩))

/-- With a range not inside BUF, the password's or the key's, KDF_DERIVE is refused with BAD_ADDR (R146). -/
theorem exec_kdfDerive_of_not_rangeOk
    (h : ¬ (RangeOk s (s.regs.src.toNat, min s.regs.len.toNat 32) ∧ RangeOk s (s.regs.dst.toNat, 16))) :
    ∃ t, exec .kdfDerive s = .next t ∧ RefusedWith .badAddr s t :=
  ⟨_, exec_of_fail (firstFailure_kdfDerive.trans (if_neg h)), refusedWith_finish s (by decide)⟩

/-- STATUS after KDF_DERIVE has its effect. -/
theorem kdfDeriveEffect_status (s : State) : (kdfDeriveEffect s).status = ⟨.ok, s.status.sticky⟩ :=
  after_ok s.status

/-- The base key of the password is read back at DST. -/
theorem memRead_kdfDeriveEffect (hw : s.buf.wf = true) :
    memRead (kdfDeriveEffect s) s.regs.dst.toNat 16 = kdf s.params (passwordBytes s) :=
  memRead_memWrite_same hw (kdf_length _ _)

/-- With the same bytes where the password stands, another BUF holds the same password. -/
theorem passwordBytes_setBuf {m : Memory}
    (h : ∀ k, k < min s.regs.len.toNat 32 → m.read (s.regs.src.toNat + k) = s.buf.read (s.regs.src.toNat + k)) :
    passwordBytes (s.setBuf m) = passwordBytes s :=
  readBytes_congr h

/-- The checks do not look at BUF. -/
theorem checksOf_kdfDerive_setBuf (m : Memory) : checksOf .kdfDerive (s.setBuf m) = checksOf .kdfDerive s := rfl

end

/-- Settles O45: two passwords with one padded form derive one key, and the checks look at no more than 32 bytes. -/
theorem truncationAndPaddingAreSilent : Obligations.TruncationAndPaddingAreSilent := by
  unfold Obligations.TruncationAndPaddingAreSilent
  refine ⟨fun p pw pw' hle hle' htake => kdf_congr ?_, fun p pw => kdf_congr (padPw_padPw p pw).symm,
    fun s hsrc hdst => ⟨_, exec_kdfDerive_of_rangeOk hsrc hdst, kdfDeriveEffect_code s⟩⟩
  rw [padPw_of_le_length hle, padPw_of_le_length hle', htake]

/-- Settles O47: the range checks decide between the effect, which writes the base key at DST, and the refusal. -/
theorem kdfDeriveWritesTheBaseKey : Obligations.KdfDeriveWritesTheBaseKey := by
  unfold Obligations.KdfDeriveWritesTheBaseKey
  refine ⟨fun s hw hsrc hdst => ?_, fun s hbad => exec_kdfDerive_of_not_rangeOk (not_and_or.2 hbad)⟩
  have hexec := exec_kdfDerive_of_rangeOk hsrc hdst
  exact ⟨_, hexec, memRead_kdfDeriveEffect hw, commandsWriteOnlyTheirRange _ _ _ hexec, kdfDeriveEffect_ctx0 s,
    endsWith_effect .kdfDerive s, kept_of_exec hexec⟩

/-- Settles O48: the checks do not look at BUF, and both machines derive the key of the same password. -/
theorem kdfDeriveReadsAtMost32Bytes : Obligations.KdfDeriveReadsAtMost32Bytes := by
  unfold Obligations.KdfDeriveReadsAtMost32Bytes
  intro s m t hw hm hagree hexec
  have hchecks := checksOf_kdfDerive_setBuf (s := s) m
  obtain ⟨code, hfail, rfl⟩ | ⟨hpass, rfl⟩ := exec_cases hexec
  · refine ⟨finish code (s.setBuf m), exec_of_fail (hchecks ▸ hfail), rfl, fun hok => ?_⟩
    have hcode : code = .ok := hok
    subst hcode
    exact absurd (refusal_of_firstFailure hfail) (by decide)
  · refine ⟨kdfDeriveEffect (s.setBuf m), exec_of_pass (i := .kdfDerive) (hchecks ▸ hpass), ?_, fun _ => ?_⟩
    · exact (kdfDeriveEffect_status (s.setBuf m)).trans (kdfDeriveEffect_status s).symm
    · calc memRead (kdfDeriveEffect (s.setBuf m)) s.regs.dst.toNat 16
        _ = kdf s.params (passwordBytes (s.setBuf m)) := memRead_kdfDeriveEffect (s := s.setBuf m) hm
        _ = kdf s.params (passwordBytes s) := by rw [passwordBytes_setBuf hagree]
        _ = memRead (kdfDeriveEffect s) s.regs.dst.toNat 16 := (memRead_kdfDeriveEffect hw).symm

end Sys2Proof.Machine
end

/-! ### The page cipher orchestrator -/

section
namespace Sys2Proof.Machine

/-! #### Page key and transform -/

/-- The page key is the whole digest, which has the KEYLENGTH bytes that are taken (R123). -/
theorem pageKey_eq_md (p : Params) (base : Bytes) (page : Word) :
    pageKey p base page = md (base ++ le32 page ++ p.salt.toList) :=
  List.take_of_length_le (md_length _).le

/-- XFORM is BCfun of the direction, the page key, the page IV and the data (R125). -/
theorem xform_eq_blockCipher (p : Params) (dir : Direction) (base : Bytes) (page : Word) (data : Bytes) :
    xform p dir base page data = blockCipher p dir (pageKey p base page) (pageIv page) data := rfl

@[simp] theorem xform_length (p : Params) (dir : Direction) (base : Bytes) (page : Word) (data : Bytes) :
    (xform p dir base page data).output.length = data.length :=
  blockCipher_length ..

/-- Settles O49: the page key is the whole digest of the key material, and the rest is the request as it is built. -/
theorem transformIsOneCbcTransaction : Obligations.TransformIsOneCbcTransaction := by
  unfold Obligations.TransformIsOneCbcTransaction
  intro p dir base page data
  have hkey := pageKey_eq_md p base page
  refine ⟨?_, rfl, ?_, hkey, ?_, rfl, ivgen_length _, xform_length ..⟩
  · rw [← hkey]
    rfl
  · rw [xform_eq_blockCipher, hkey, pageIv]
  · rw [hkey, md_length]

/-! #### The page-size field -/

/-- The two shifted bytes share no bit, so the field is their weighted sum (R127). -/
theorem pageSizeField_eq (h : Bytes) :
    pageSizeField h = 256 * (h.getD 0 0).toNat + 65536 * (h.getD 1 0).toNat := by
  have hlow : (h.getD 0 0).toNat <<< 8 < 2 ^ 16 := by rw [Nat.shiftLeft_eq]; omega
  rw [pageSizeField, Nat.lor_comm, ← Nat.shiftLeft_add_eq_or_of_lt hlow, Nat.shiftLeft_eq, Nat.shiftLeft_eq]
  omega

/-- The accepted page sizes are the powers of two from 512 to 65536 (R127). -/
theorem pageSizeAccepted_iff {ps : Nat} : pageSizeAccepted ps = true ↔
    ps ∈ [512, 1024, 2048, 4096, 8192, 16384, 32768, 65536] := by
  refine ⟨fun h => ?_, fun h => ?_⟩
  · simp only [pageSizeAccepted, Bool.and_eq_true, decide_eq_true_eq, beq_iff_eq] at h
    obtain ⟨⟨hmin, hmax⟩, hand⟩ := h
    have hne : ps ≠ 0 := fun hzero => absurd hmin (by rw [hzero]; decide)
    obtain ⟨k, rfl⟩ := (Nat.and_sub_one_eq_zero_iff_isPowerOfTwo hne).1 hand
    have hlo : 9 ≤ k := (Nat.pow_le_pow_iff_right (a := 2) (by decide)).1 hmin
    have hhi : k ≤ 16 := (Nat.pow_le_pow_iff_right (a := 2) (by decide)).1 hmax
    interval_cases k <;> decide
  · have hall : ∀ n ∈ [512, 1024, 2048, 4096, 8192, 16384, 32768, 65536], pageSizeAccepted n = true := by decide
    exact hall ps h

/-- The pairs of bytes whose page size is accepted are eight (R128). -/
theorem pageSizeAccepted_pageSizeField_iff (h : Bytes) : pageSizeAccepted (pageSizeField h) = true ↔
    (h.getD 0 0, h.getD 1 0) ∈ ([(0x02, 0x00), (0x04, 0x00), (0x08, 0x00), (0x10, 0x00), (0x20, 0x00),
      (0x40, 0x00), (0x80, 0x00), (0x00, 0x01)] : List (Byte × Byte)) := by
  rw [pageSizeAccepted_iff, pageSizeField_eq]
  simp only [List.mem_cons, List.not_mem_nil, or_false, Prod.mk.injEq, ← BitVec.toNat_inj, BitVec.reduceToNat]
  iterate 7 refine or_congr (by omega) ?_
  omega

/-- Settles O50: the accepted sizes are the powers of two from 512 to 65536, and each has one pair of bytes. -/
theorem newSchemeAcceptsExactlyEightSizes : Obligations.NewSchemeAcceptsExactlyEightSizes := by
  unfold Obligations.NewSchemeAcceptsExactlyEightSizes
  intro h _
  simp only [newScheme, Bool.and_eq_true, beq_iff_eq, and_assoc, pageSizeAccepted_pageSizeField_iff]

/-! #### The checks of the page commands -/

section
variable {s : State}

/-- The key's and the page's range are inside BUF. -/
abbrev PageRangesOk (s : State) : Prop :=
  RangeOk s (s.regs.key.toNat, 16) ∧ RangeOk s (s.regs.src.toNat, s.regs.len.toNat)

/-- The check of the two ranges as the statements say it (R134). -/
theorem pageRangesCheck_iff : (keyValid s 16 && sourceValid s) = true ↔ PageRangesOk s := by
  rw [Bool.and_eq_true]
  exact and_congr keyValid_iff sourceValid_iff

/-- The check of the length as the statements say it (R136). -/
theorem lenCheck_iff {n : Nat} : decide (lenCount s ≤ n) = true ↔ s.regs.len.toNat ≤ n := decide_eq_true_iff

/-- The check of page 1's length as the statements say it (R135). -/
theorem minLenCheck_iff : (pageOperand s != 1 || decide (24 ≤ lenCount s)) = true ↔
    (s.regs.param = 1 → 24 ≤ s.regs.len.toNat) := by
  rw [Bool.or_eq_true, bne_iff_ne, decide_eq_true_iff, imp_iff_not_or]
  rfl

/-- The checks of PG_ENCRYPT: the length, then the ranges (R134). -/
theorem firstFailure_pgEncrypt : firstFailure (checksOf .pgEncrypt s) =
    if s.regs.len.toNat ≤ 2 ^ 28 - 1 then if PageRangesOk s then none else some .badAddr else some .badLen := by
  simp only [checksOf, firstFailure_cons, firstFailure_nil, pageRangesCheck_iff, lenCheck_iff]

/-- The checks of PG_DECRYPT: the two bounds of the length, then the ranges (R135). -/
theorem firstFailure_pgDecrypt : firstFailure (checksOf .pgDecrypt s) =
    if s.regs.len.toNat ≤ 2 ^ 28 - 1 ∧ (s.regs.param = 1 → 24 ≤ s.regs.len.toNat) then
      if PageRangesOk s then none else some .badAddr
    else some .badLen := by
  rw [ite_and]
  simp only [checksOf, firstFailure_cons, firstFailure_nil, pageRangesCheck_iff, lenCheck_iff, minLenCheck_iff]

end

/-- A command whose first failing check has the code is refused with it. -/
theorem exists_refusedWith {i : Instr} {s : State} {c : Code} (h : firstFailure (checksOf i s) = some c)
    (hc : c ≠ .ok) : ∃ t, exec i s = .next t ∧ RefusedWith c s t :=
  ⟨_, exec_of_fail h, refusedWith_finish s hc⟩

/-- Settles O54: both bounds of the length come before the ranges. -/
theorem pgDecryptChecks : Obligations.PgDecryptChecks := by
  unfold Obligations.PgDecryptChecks
  refine ⟨fun s hlen => exists_refusedWith ?_ (by decide),
    fun s hmax hmin hbad => exists_refusedWith ?_ (by decide)⟩
  · rw [firstFailure_pgDecrypt, if_neg]
    rintro ⟨hmax, hmin⟩
    rcases hlen with hlong | ⟨hone, hshort⟩
    · omega
    · exact absurd (hmin hone) (Nat.not_le.2 hshort)
  · rw [firstFailure_pgDecrypt, if_pos ⟨hmax, hmin⟩, if_neg (not_and_or.2 hbad)]

/-! #### Storing a page -/

section
variable {s : State} {r : Code × Bytes}

@[simp] theorem storePage_status (s : State) (r : Code × Bytes) : (storePage s r).status = s.status.after r.1 := rfl

@[simp] theorem storePage_ctx0 (s : State) (r : Code × Bytes) : (storePage s r).ctx0 = s.ctx0 := rfl

/-- A page command ends with the code of its result. -/
theorem endsWith_storePage {c : Code} (h : r.1 = c) : EndsWith c s (storePage s r) := by
  subst h
  exact ⟨rfl, rfl⟩

/-- Storing a page keeps BUF canonical. -/
theorem storePage_buf_wf (hw : s.buf.wf = true) : (storePage s r).buf.wf = true := wf_writeBytes _ _ hw

/-- A stored page of LEN bytes is read back at SRC. -/
theorem memRead_storePage (hw : s.buf.wf = true) (hlen : r.2.length = s.regs.len.toNat) :
    memRead (storePage s r) s.regs.src.toNat s.regs.len.toNat = r.2 :=
  memRead_memWrite_same hw hlen

/-- A stored page of LEN bytes changes no byte outside its range. -/
theorem bufKeptOutside_storePage (hlen : r.2.length = s.regs.len.toNat) :
    BufKeptOutside s (storePage s r) s.regs.src.toNat s.regs.len.toNat :=
  fun _ ha => read_writeBytes_outside (by rwa [hlen])

/-- A key that lies outside the page is not written over. -/
theorem baseKeyBytes_storePage (hlen : r.2.length = s.regs.len.toNat)
    (h : s.regs.key.toNat + 16 ≤ s.regs.src.toNat ∨ s.regs.src.toNat + s.regs.len.toNat ≤ s.regs.key.toNat) :
    baseKeyBytes (storePage s r) = baseKeyBytes s :=
  memRead_memWrite_disjoint (by rwa [hlen])

/-- A page stored as two parts is read back in those parts. -/
theorem memRead_storePage_append {c : Code} {head tail : Bytes} {n : Nat} (hw : s.buf.wf = true)
    (hhead : head.length = n) (hlen : (head ++ tail).length = s.regs.len.toNat) :
    memRead (storePage s (c, head ++ tail)) s.regs.src.toNat n = head ∧
      memRead (storePage s (c, head ++ tail)) (s.regs.src.toNat + n) (s.regs.len.toNat - n) = tail := by
  have hread := memRead_storePage (r := (c, head ++ tail)) hw hlen
  have hle : n ≤ s.regs.len.toNat := by rw [← hlen, ← hhead, List.length_append]; omega
  refine ⟨?_, ?_⟩
  · have htake := congrArg (List.take n) hread
    rwa [memRead, readBytes_take _ _ hle, List.take_left' hhead] at htake
  · have hdrop := congrArg (List.drop n) hread
    rwa [memRead, readBytes_drop _ _ hle, List.drop_left' hhead] at hdrop

end

/-! #### The whole buffer through the cipher -/

/-- The result of a page command without header logic: what the cipher returned, and its failure as the code. -/
def wholePage (ans : PortAnswer) : Code × Bytes := (if cipherFailed ans then .cipherFail else .ok, ans.output)

theorem wholePage_fst_of_neg {ans : PortAnswer} (h : ans.ret.toInt < 0) : (wholePage ans).1 = .cipherFail :=
  if_pos (cipherFailed_iff.2 h)

theorem wholePage_fst_of_nonneg {ans : PortAnswer} (h : 0 ≤ ans.ret.toInt) : (wholePage ans).1 = .ok := by
  simp [wholePage, cipherFailed_eq_false_iff.2 h]

/-- Without the new scheme decryption is the transform of the whole page (R130). -/
theorem decryptPage_of_not_newScheme {p : Params} {page : Word} {pg : Bytes} (base : Bytes)
    (h : takesNewScheme p page pg = false) :
    decryptPage p base page pg = wholePage (xform p .dec base page pg) := by
  simp only [decryptPage, detectHeader, h, Bool.false_eq_true, if_false, List.drop_zero, List.take_zero,
    List.nil_append, wholePage]
  split <;> rfl

/-- A page takes no header logic when its number is not 1 or the new scheme is not detected (R126). -/
theorem takesNewScheme_eq_false {p : Params} {page : Word} {pg : Bytes}
    (h : page = 1 → newScheme (headerField p pg) = false) : takesNewScheme p page pg = false := by
  by_cases hone : page = 1
  · rw [takesNewScheme, h hone, Bool.and_false]
  · rw [takesNewScheme, beq_eq_false_iff_ne.2 hone, Bool.false_and]

/-- What a command does that stores an answer of the cipher as the whole page. -/
theorem exec_of_wholePage {i : Instr} {s : State} {ans : PortAnswer} (hw : s.buf.wf = true)
    (hlen : ans.output.length = s.regs.len.toNat) (hexec : exec i s = .next (storePage s (wholePage ans))) :
    ∃ t, exec i s = .next t ∧ memRead t s.regs.src.toNat s.regs.len.toNat = ans.output ∧
      BufKeptOutside s t s.regs.src.toNat s.regs.len.toNat ∧ t.ctx0 = s.ctx0 ∧ Kept s t ∧
      (ans.ret.toInt < 0 → EndsWith .cipherFail s t) ∧ (0 ≤ ans.ret.toInt → EndsWith .ok s t) :=
  ⟨_, hexec, memRead_storePage hw hlen, bufKeptOutside_storePage hlen, storePage_ctx0 .., kept_of_exec hexec,
    fun hneg => endsWith_storePage (wholePage_fst_of_neg hneg),
    fun hnonneg => endsWith_storePage (wholePage_fst_of_nonneg hnonneg)⟩

/-- PG_ENCRYPT, its checks passed, stores the transform of the whole page, whatever its number (R134). -/
theorem exec_pgEncrypt_of_rangesOk {s : State} (hmax : s.regs.len.toNat ≤ 2 ^ 28 - 1) (hr : PageRangesOk s) :
    exec .pgEncrypt s =
      .next (storePage s (wholePage (xform s.params .enc (baseKeyBytes s) s.regs.param (sourceBytes s)))) :=
  exec_of_pass (i := .pgEncrypt) (by rw [firstFailure_pgEncrypt, if_pos hmax, if_pos hr])

/-- PG_DECRYPT, its checks passed, stores the decrypted page. -/
theorem exec_pgDecrypt_of_rangesOk {s : State} (hmax : s.regs.len.toNat ≤ 2 ^ 28 - 1)
    (hmin : s.regs.param = 1 → 24 ≤ s.regs.len.toNat) (hr : PageRangesOk s) :
    exec .pgDecrypt s =
      .next (storePage s (decryptPage s.params (baseKeyBytes s) s.regs.param (sourceBytes s))) :=
  exec_of_pass (i := .pgDecrypt) (by rw [firstFailure_pgDecrypt, if_pos ⟨hmax, hmin⟩, if_pos hr])

/-- The transform of the whole page returns LEN bytes. -/
theorem xform_sourceBytes_length (s : State) (dir : Direction) (base : Bytes) (page : Word) :
    (xform s.params dir base page (sourceBytes s)).output.length = s.regs.len.toNat := by
  rw [xform_length, sourceBytes_length]
  rfl

/-- Settles O51: the effect stores what the cipher returned, and the length is checked before the ranges. -/
theorem pgEncryptTransformsTheBuffer : Obligations.PgEncryptTransformsTheBuffer := by
  unfold Obligations.PgEncryptTransformsTheBuffer
  refine ⟨fun s hw hmax hkey hsrc => ?_, fun s hlong => exists_refusedWith ?_ (by decide),
    fun s hmax hbad => exists_refusedWith ?_ (by decide)⟩
  · exact exec_of_wholePage hw (xform_sourceBytes_length ..) (exec_pgEncrypt_of_rangesOk hmax ⟨hkey, hsrc⟩)
  · rw [firstFailure_pgEncrypt, if_neg (Nat.not_le.2 hlong)]
  · rw [firstFailure_pgEncrypt, if_pos hmax, if_neg (not_and_or.2 hbad)]

/-- Settles O52: where no header logic applies, the effect stores what the cipher returned. -/
theorem pgDecryptWithoutHeaderLogic : Obligations.PgDecryptWithoutHeaderLogic := by
  unfold Obligations.PgDecryptWithoutHeaderLogic
  intro s hw hmax hkey hsrc hplain
  have hmin : s.regs.param = 1 → 24 ≤ s.regs.len.toNat := fun hone => (hplain.resolve_left (not_not.2 hone)).1
  have hlegacy : takesNewScheme s.params s.regs.param (sourceBytes s) = false :=
    takesNewScheme_eq_false fun hone => (hplain.resolve_left (not_not.2 hone)).2
  have hexec := exec_pgDecrypt_of_rangesOk hmax hmin ⟨hkey, hsrc⟩
  rw [decryptPage_of_not_newScheme _ hlegacy] at hexec
  exact exec_of_wholePage hw (xform_sourceBytes_length ..) hexec

/-! #### The new scheme on page 1 -/

/-- The code and bytes 0..15 after PG_DECRYPT on a new-scheme page 1, by what the cipher returned (R132, R137). -/
def headerOutcome (p : Params) (pg : Bytes) (ans : PortAnswer) : Code × Bytes :=
  if cipherFailed ans then (.cipherFail, pg.take 16)
  else if ans.output.take 8 = savedHeader pg then (.ok, p.sig.toList)
  else (.hdrMismatch, pg.take 16)

section
variable {p : Params} {pg : Bytes} {ans : PortAnswer}

theorem headerOutcome_of_neg (h : ans.ret.toInt < 0) : headerOutcome p pg ans = (.cipherFail, pg.take 16) :=
  if_pos (cipherFailed_iff.2 h)

theorem headerOutcome_of_match (h : 0 ≤ ans.ret.toInt) (heq : ans.output.take 8 = savedHeader pg) :
    headerOutcome p pg ans = (.ok, p.sig.toList) := by
  simp [headerOutcome, cipherFailed_eq_false_iff.2 h, heq]

theorem headerOutcome_of_mismatch (h : 0 ≤ ans.ret.toInt) (hne : ans.output.take 8 ≠ savedHeader pg) :
    headerOutcome p pg ans = (.hdrMismatch, pg.take 16) := by
  simp [headerOutcome, cipherFailed_eq_false_iff.2 h, hne]

theorem headerOutcome_length (h : 16 ≤ pg.length) : (headerOutcome p pg ans).2.length = 16 := by
  have htake : (pg.take 16).length = 16 := List.length_take_of_le h
  unfold headerOutcome
  split
  · exact htake
  · split
    · exact Vector.length_toList
    · exact htake

/-- Relocation leaves bytes 0..15 alone (R129). -/
theorem relocate_take (h : 16 ≤ pg.length) : (relocate pg).take 16 = pg.take 16 := by
  rw [relocate, List.append_assoc, List.take_left' (List.length_take_of_le h)]

/-- After relocation bytes 8..15 stand before bytes 24 on (R129). -/
theorem relocate_drop (h : 16 ≤ pg.length) : (relocate pg).drop 16 = (pg.drop 8).take 8 ++ pg.drop 24 := by
  rw [relocate, List.append_assoc, List.drop_left' (List.length_take_of_le h)]

/-- A slice of the page, in BUF. -/
theorem sourceBytes_drop_take {s : State} {k n : Nat} (h : k + n ≤ s.regs.len.toNat) :
    ((sourceBytes s).drop k).take n = memRead s (s.regs.src.toNat + k) n := by
  have hle : k ≤ s.regs.len.toNat := by omega
  have hrest : n ≤ s.regs.len.toNat - k := by omega
  calc ((s.buf.readBytes s.regs.src.toNat s.regs.len.toNat).drop k).take n
    _ = (s.buf.readBytes (s.regs.src.toNat + k) (s.regs.len.toNat - k)).take n := by rw [readBytes_drop _ _ hle]
    _ = s.buf.readBytes (s.regs.src.toNat + k) n := readBytes_take _ _ hrest

/-- Verification compares the first eight bytes returned, and a match replaces bytes 0..15 by SIG (R132). -/
theorem verifyRestore_append {head tail saved : Bytes} (h : head.length = 16) :
    verifyRestore p saved (head ++ tail) =
      if tail.take 8 = saved then (.ok, p.sig.toList ++ tail) else (.hdrMismatch, head ++ tail) := by
  rw [verifyRestore, savedHeader, List.drop_left' h]

/-- With the new scheme what the cipher returns stands behind a header of 16 bytes. -/
theorem decryptPage_of_newScheme {page : Word} (base : Bytes) (h : 16 ≤ pg.length)
    (hnew : takesNewScheme p page pg = true)
    (hans : ans = xform p .dec base page ((pg.drop 8).take 8 ++ pg.drop 24)) :
    decryptPage p base page pg = ((headerOutcome p pg ans).1, (headerOutcome p pg ans).2 ++ ans.output) := by
  simp only [decryptPage, detectHeader, hnew, if_true, Config.hdrBytes, relocate_drop h, relocate_take h, ← hans,
    verifyRestore_append (List.length_take_of_le h), headerOutcome]
  split
  · rfl
  · split <;> rfl

end

/-- PG_DECRYPT, its checks passed, stores a new-scheme page 1 as a header and what the cipher returned for the
relocated data (R129, R130). -/
theorem exec_pgDecrypt_of_newScheme {s : State} {ans : PortAnswer} (hmax : s.regs.len.toNat ≤ 2 ^ 28 - 1)
    (hr : PageRangesOk s) (hone : s.regs.param = 1) (hmin : 24 ≤ s.regs.len.toNat)
    (hnew : newScheme (headerField s.params (sourceBytes s)) = true)
    (hans : ans = xform s.params .dec (baseKeyBytes s) 1
      (memRead s (s.regs.src.toNat + 8) 8 ++ memRead s (s.regs.src.toNat + 24) (s.regs.len.toNat - 24))) :
    exec .pgDecrypt s = .next (storePage s ((headerOutcome s.params (sourceBytes s) ans).1,
      (headerOutcome s.params (sourceBytes s) ans).2 ++ ans.output)) := by
  have hlen : (sourceBytes s).length = s.regs.len.toNat := sourceBytes_length s
  have htakes : takesNewScheme s.params 1 (sourceBytes s) = true := Bool.and_eq_true_iff.2 ⟨rfl, hnew⟩
  have hrest : (sourceBytes s).drop 24 = memRead s (s.regs.src.toNat + 24) (s.regs.len.toNat - 24) :=
    readBytes_drop _ _ hmin
  rw [exec_pgDecrypt_of_rangesOk hmax (fun _ => hmin) hr, hone]
  rw [decryptPage_of_newScheme _ (by omega) htakes (by rw [sourceBytes_drop_take (by omega), hrest, ← hans])]

/-- Settles O53: the stored page is read back in its two parts, the header by what the cipher returned. -/
theorem pgDecryptNewSchemePageOne : Obligations.PgDecryptNewSchemePageOne := by
  unfold Obligations.PgDecryptNewSchemePageOne
  intro s hw hmax hkey hsrc hone hmin hnew src len ans
  have hexec := exec_pgDecrypt_of_newScheme hmax ⟨hkey, hsrc⟩ hone hmin hnew (ans := ans) rfl
  have hpage : (sourceBytes s).length = len := sourceBytes_length s
  have hhead : (headerOutcome s.params (sourceBytes s) ans).2.length = 16 := headerOutcome_length (by omega)
  have hlen : ((headerOutcome s.params (sourceBytes s) ans).2 ++ ans.output).length = len := by
    rw [List.length_append, hhead, xform_length, List.length_append, memRead_length, memRead_length]
    omega
  obtain ⟨hreadHead, hreadTail⟩ := memRead_storePage_append (c := (headerOutcome s.params (sourceBytes s) ans).1)
    hw hhead hlen
  have hfirst : (sourceBytes s).take 16 = memRead s src 16 := sourceBytes_drop_take (k := 0) (by omega)
  have hsaved : savedHeader (sourceBytes s) = memRead s (src + 16) 8 := sourceBytes_drop_take hmin
  refine ⟨_, hexec, hreadTail, bufKeptOutside_storePage hlen, storePage_ctx0 .., kept_of_exec hexec, fun hneg => ?_,
    fun hnonneg heq => ?_, fun hnonneg hne => ?_⟩
  · rw [hreadHead, headerOutcome_of_neg hneg]
    exact ⟨hfirst, endsWith_storePage rfl⟩
  · rw [hreadHead, headerOutcome_of_match hnonneg (heq.trans hsaved.symm)]
    exact ⟨rfl, endsWith_storePage rfl⟩
  · rw [hreadHead, headerOutcome_of_mismatch hnonneg (hsaved ▸ hne)]
    exact ⟨hfirst, endsWith_storePage rfl⟩

/-! #### Encrypting and decrypting again -/

/-- What two commands in turn keep. -/
theorem Kept.trans {s t u : State} (h : Kept s t) (h' : Kept t u) : Kept s u :=
  ⟨h'.regs.trans h.regs, h'.params.trans h.params, h'.host.trans h.host⟩

/-- Storing over a stored page the bytes that stood there before restores BUF. -/
theorem storePage_storePage_buf {s : State} {r r' : Code × Bytes} (hw : s.buf.wf = true)
    (hlen : r.2.length = s.regs.len.toNat) (hback : r'.2 = sourceBytes s) :
    (storePage (storePage s r) r').buf = s.buf := by
  have hw' : (storePage s r).buf.wf = true := storePage_buf_wf hw
  have hlen' : r'.2.length = (storePage s r).regs.len.toNat := by rw [hback, sourceBytes_length]; rfl
  have hfirst : BufKeptOutside s (storePage s r) s.regs.src.toNat s.regs.len.toNat := bufKeptOutside_storePage hlen
  have hsecond : BufKeptOutside (storePage s r) (storePage (storePage s r) r') s.regs.src.toNat s.regs.len.toNat :=
    bufKeptOutside_storePage hlen'
  exact buf_eq_of_memRead_eq hw (storePage_buf_wf hw') ((memRead_storePage hw' hlen').trans hback)
    fun a ha => (hsecond a ha).trans (hfirst a ha)

/-- With the key outside the page, PG_DECRYPT of a stored ciphertext that does not show the new scheme transforms it
under the key of the start. -/
theorem exec_pgDecrypt_storePage {s : State} {r : Code × Bytes} (hw : s.buf.wf = true)
    (hmax : s.regs.len.toNat ≤ 2 ^ 28 - 1) (hr : PageRangesOk s)
    (hout : s.regs.key.toNat + 16 ≤ s.regs.src.toNat ∨ s.regs.src.toNat + s.regs.len.toNat ≤ s.regs.key.toNat)
    (hone : s.regs.param = 1 → 24 ≤ s.regs.len.toNat ∧ newScheme (headerField s.params r.2) = false)
    (hlen : r.2.length = s.regs.len.toNat) :
    exec .pgDecrypt (storePage s r) =
      .next (storePage (storePage s r) (wholePage (xform s.params .dec (baseKeyBytes s) s.regs.param r.2))) := by
  have hlegacy : takesNewScheme s.params s.regs.param r.2 = false := takesNewScheme_eq_false fun h => (hone h).2
  have hsource : sourceBytes (storePage s r) = r.2 := memRead_storePage hw hlen
  rw [← decryptPage_of_not_newScheme _ hlegacy, exec_pgDecrypt_of_rangesOk (s := storePage s r) hmax
    (fun h => (hone h).1) hr, baseKeyBytes_storePage hlen hout, hsource]
  rfl

/-- Settles O55: PG_DECRYPT reads the same key and the encrypted page, and stores the page of the start. -/
theorem pageRoundTrip : Obligations.PageRoundTrip := by
  unfold Obligations.PageRoundTrip
  intro s hw hmax hkey hsrc hout base page key iv enc dec henc hdec hinv hone
  have hencLen : enc.output.length = s.regs.len.toNat := (blockCipher_length ..).trans (memRead_length ..)
  have hfirst : exec .pgEncrypt s = .next (storePage s (wholePage enc)) :=
    exec_pgEncrypt_of_rangesOk hmax ⟨hkey, hsrc⟩
  have hsecond : exec .pgDecrypt (storePage s (wholePage enc)) =
      .next (storePage (storePage s (wholePage enc)) (wholePage dec)) :=
    exec_pgDecrypt_storePage (r := wholePage enc) hw hmax ⟨hkey, hsrc⟩ hout hone hencLen
  refine ⟨_, _, hfirst, hsecond, storePage_storePage_buf (r := wholePage enc) (r' := wholePage dec) hw hencLen hinv,
    ?_, ?_, ?_, (kept_of_exec hfirst).trans (kept_of_exec hsecond)⟩
  · rw [storePage_status, wholePage_fst_of_nonneg henc, after_ok]
  · rw [storePage_status, storePage_status, wholePage_fst_of_nonneg henc, wholePage_fst_of_nonneg hdec, after_ok,
      after_ok]
  · rw [storePage_ctx0, storePage_ctx0]

end Sys2Proof.Machine
end

/-! ### The outcome codes and the conditions under which each is raised -/

section
namespace Sys2Proof.Machine

/-! #### The codes of the table -/

/-- The values of the table of R140 end at 6. -/
theorem toNat_toBits_le_six (c : Code) : c.toBits.toNat ≤ 6 := by
  cases c <;> decide

/-- No two rows of the table of R140 share a value. -/
theorem toBits_injective : Function.Injective Code.toBits := by
  intro c d
  cases c <;> cases d <;> decide

/-- The two-valued status is ok for the two codes R142 names. -/
theorem isOk_iff {c : Code} : c.isOk = true ↔ c = .ok ∨ c = .hdrMismatch := by
  cases c <;> decide

/-- A refusal code is not OK (R140), so it sets STICKY. -/
theorem ne_ok_of_isRefusal {c : Code} (h : c.isRefusal = true) : c ≠ .ok := by
  rintro rfl
  cases h

/-- Settles O18: a command's code stands in its row, and the rest are facts of the seven codes. -/
theorem outcomeCodesAreThoseOfTheTable : Obligations.OutcomeCodesAreThoseOfTheTable := by
  unfold Obligations.OutcomeCodesAreThoseOfTheTable
  exact ⟨fun _ _ _ => producesCode_of_exec, toNat_toBits_le_six, fun _ _ h => toBits_injective h, fun _ => isOk_iff⟩

/-! #### Refusals -/

section
variable {i : Instr} {s t : State} {c : Code}

/-- A command ends with a refusal code exactly when its first failing check has that code. -/
theorem code_eq_iff_firstFailure (h : exec i s = .next t) (hc : c.isRefusal = true) :
    t.status.code = c ↔ firstFailure (checksOf i s) = some c := by
  obtain ⟨d, hfail, rfl⟩ | ⟨hpass, rfl⟩ := exec_cases h
  · rw [hfail, finish_status, after_code, Option.some_inj]
  · have hne : (effectOf i s).status.code ≠ c := by
      rintro rfl
      exact absurd hc (by simp [effect_code])
    simp [hpass, hne]

/-- A command that ends with a refusal code has changed STATUS only (R141). -/
theorem refusedWith_of_isRefusal (h : exec i s = .next t) (hc : t.status.code.isRefusal = true) :
    RefusedWith t.status.code s t := by
  obtain ⟨d, -, rfl⟩ | ⟨-, rfl⟩ := exec_cases h
  · exact refusedWith_finish s (ne_ok_of_isRefusal hc)
  · exact absurd hc (by simp [effect_code])

/-- A word written to CMD that ends with a refusal code has changed STATUS only, whether it decodes or not (R141). -/
theorem refusedWith_of_startCommand {w : Word} (h : startCommand w s = .next t)
    (hc : t.status.code.isRefusal = true) : RefusedWith t.status.code s t := by
  obtain ⟨i, -, hi⟩ | ⟨e, -, rfl⟩ := startCommand_cases h
  · exact refusedWith_of_isRefusal hi hc
  · exact refusedWith_finish s (ne_ok_of_isRefusal hc)

end

/-- No check reads a byte of BUF or has an answer from the block cipher (R141). -/
theorem checksOf_buf_bcRows (i : Instr) (s : State) (m : Memory) (rows : List CipherRow) :
    checksOf i { s with buf := m, params := { s.params with bcRows := rows } } = checksOf i s := by
  cases i <;> rfl

/-- Settles O19: a refusal comes from the checks, which look at neither BUF nor the cipher. -/
theorem refusalChangesOnlyStatus : Obligations.RefusalChangesOnlyStatus := by
  unfold Obligations.RefusalChangesOnlyStatus
  refine ⟨fun w s t => refusedWith_of_startCommand, fun i s t h hc => ?_⟩
  refine ⟨refusedWith_of_isRefusal h hc, fun m rows => ?_⟩
  have hfail : firstFailure (checksOf i s) = some t.status.code := (code_eq_iff_firstFailure h hc).1 rfl
  exact exists_refusedWith (by rwa [checksOf_buf_bcRows]) (ne_ok_of_isRefusal hc)

/-! #### The order of the checks -/

/-- A context is open where the command wants one (R144). -/
abbrev SeqOk (i : Instr) (s : State) : Prop := i = .mdUpdate ∨ i = .mdFinal → s.ctx0.valid = true

/-- The lengths are ones the command takes (R145). -/
abbrev LenOk (i : Instr) (s : State) : Prop :=
  (i = .scApply → 1 ≤ s.regs.klen.toNat ∧ s.regs.klen.toNat ≤ 256) ∧
  (i = .pgEncrypt ∨ i = .pgDecrypt → s.regs.len.toNat ≤ 2 ^ 28 - 1) ∧
  (i = .pgDecrypt → s.regs.param = 1 → 24 ≤ s.regs.len.toNat)

/-- SC_APPLY's source and destination are empty, identical or disjoint (R44). -/
abbrev OverlapOk (s : State) : Prop :=
  s.regs.len = 0 ∨ s.regs.src = s.regs.dst ∨ s.regs.src.toNat + s.regs.len.toNat ≤ s.regs.dst.toNat ∨
    s.regs.dst.toNat + s.regs.len.toNat ≤ s.regs.src.toNat

/-- The ranges the command checks are inside BUF, and SC_APPLY's buffers do not overlap in part (R146). -/
abbrev AddrOk (i : Instr) (s : State) : Prop :=
  (∀ r ∈ checkedRanges s i, RangeOk s r) ∧ (i = .scApply → OverlapOk s)

/-- The checks of SC_APPLY: the key's length, then the ranges and their overlap (R92). -/
theorem firstFailure_scApply {s : State} : firstFailure (checksOf .scApply s) =
    if 1 ≤ s.regs.klen.toNat ∧ s.regs.klen.toNat ≤ 256 then
      if (RangeOk s (s.regs.key.toNat, s.regs.klen.toNat) ∧ RangeOk s (s.regs.src.toNat, s.regs.len.toNat) ∧
        RangeOk s (s.regs.dst.toNat, s.regs.len.toNat)) ∧ OverlapOk s then none else some .badAddr
    else some .badLen := by
  rw [ite_and (RangeOk s (s.regs.key.toNat, s.regs.klen.toNat) ∧ _)]
  simp only [checksOf, firstFailure_cons, firstFailure_nil, klenCheck_iff, rangesCheck_iff, overlapAllowed_iff]

/-- What every command checks, in the order of R149: BAD_SEQ before BAD_LEN before BAD_ADDR. -/
theorem firstFailure_checksOf (i : Instr) (s : State) : firstFailure (checksOf i s) =
    if SeqOk i s then if LenOk i s then if AddrOk i s then none else some .badAddr else some .badLen
    else some .badSeq := by
  simp only [SeqOk, LenOk, AddrOk]
  cases i
  case mdInit | mdAbort => simp [checksOf, checkedRanges]
  case mdUpdate => simp [checksOf, checkedRanges, sourceValid_iff]
  case mdFinal | ivGen => simp [checksOf, checkedRanges, destValid_iff]
  case scApply => simp [firstFailure_scApply, checkedRanges]
  case kdfDerive => simp [firstFailure_kdfDerive, checkedRanges]
  case pgEncrypt => simp [firstFailure_pgEncrypt, checkedRanges]
  case pgDecrypt => simp [firstFailure_pgDecrypt, checkedRanges]

section
variable {i : Instr} {s t : State}

/-- A command whose lengths R145 refuses wants no open context. -/
theorem seqOk_of_not_lenOk (h : ¬ LenOk i s) : SeqOk i s := by
  rintro (rfl | rfl) <;> simp [LenOk] at h

/-- BAD_SEQ is raised exactly when a context the command wants is not open. -/
theorem code_eq_badSeq_iff (h : exec i s = .next t) : t.status.code = .badSeq ↔ ¬ SeqOk i s := by
  rw [code_eq_iff_firstFailure h rfl, firstFailure_checksOf]
  by_cases hseq : SeqOk i s
  · rw [if_pos hseq]
    exact iff_of_false (by split_ifs <;> decide) (not_not.2 hseq)
  · exact iff_of_true (if_neg hseq) hseq

/-- BAD_LEN is raised exactly when a length is not one the command takes. -/
theorem code_eq_badLen_iff (h : exec i s = .next t) : t.status.code = .badLen ↔ ¬ LenOk i s := by
  rw [code_eq_iff_firstFailure h rfl, firstFailure_checksOf]
  by_cases hlen : LenOk i s
  · rw [if_pos hlen]
    exact iff_of_false (by split_ifs <;> decide) (not_not.2 hlen)
  · exact iff_of_true (by rw [if_pos (seqOk_of_not_lenOk hlen), if_neg hlen]) hlen

/-- Past the first two kinds of check, BAD_ADDR is raised exactly when an address is refused. -/
theorem code_eq_badAddr_iff (h : exec i s = .next t) (hseq : SeqOk i s) (hlen : LenOk i s) :
    t.status.code = .badAddr ↔ ¬ AddrOk i s := by
  rw [code_eq_iff_firstFailure h rfl, firstFailure_checksOf, if_pos hseq, if_pos hlen, Option.ite_none_left_eq_some,
    and_iff_left rfl]

/-- Partial overlap as the statements say it: SC_APPLY's source and destination share a byte without being identical. -/
theorem not_overlapOk_iff : ¬ OverlapOk s ↔ 0 < s.regs.len.toNat ∧ s.regs.src ≠ s.regs.dst ∧
    ∃ a, s.regs.src.toNat ≤ a ∧ a < s.regs.src.toNat + s.regs.len.toNat ∧
      s.regs.dst.toNat ≤ a ∧ a < s.regs.dst.toNat + s.regs.len.toNat := by
  have hzero : s.regs.len = 0 ↔ s.regs.len.toNat = 0 := BitVec.toNat_inj.symm
  rw [OverlapOk, hzero]
  constructor
  · intro h
    exact ⟨by omega, by tauto, max s.regs.src.toNat s.regs.dst.toNat, by omega⟩
  · rintro ⟨hpos, hne, a, ha⟩ (h | h | h)
    · omega
    · exact hne h
    · omega

/-- What it is for an address to be refused (R146). -/
theorem not_addrOk_iff :
    ¬ AddrOk i s ↔ (∃ r ∈ checkedRanges s i, ¬ RangeOk s r) ∨ (i = .scApply ∧ ¬ OverlapOk s) := by
  rw [AddrOk, not_and_or, not_forall₂, Classical.not_imp]
  simp only [exists_prop]

end

/-- Settles O25: the check for an open context is the first of the two commands that have it. -/
theorem badSeqExactlyWithoutOpenContext : Obligations.BadSeqExactlyWithoutOpenContext := by
  unfold Obligations.BadSeqExactlyWithoutOpenContext
  intro i s t h
  rw [code_eq_badSeq_iff h, Classical.not_imp, Bool.not_eq_true]

/-- Settles O26: only commands that want no open context check a length, and they check it first. -/
theorem badLenExactlyForListedLengths : Obligations.BadLenExactlyForListedLengths := by
  unfold Obligations.BadLenExactlyForListedLengths
  intro i s t h
  rw [code_eq_badLen_iff h]
  simp only [not_and_or, Classical.not_imp, Nat.not_le, Nat.lt_one_iff]

/-- Settles O27: past the first two checks, the address checks decide. -/
theorem badAddrExactlyForRangesAndOverlap : Obligations.BadAddrExactlyForRangesAndOverlap := by
  unfold Obligations.BadAddrExactlyForRangesAndOverlap
  intro i s t h hseq hlen
  have hseq : SeqOk i s := not_not.1 (mt (code_eq_badSeq_iff h).2 hseq)
  have hlen : LenOk i s := not_not.1 (mt (code_eq_badLen_iff h).2 hlen)
  refine ⟨?_, fun hc => hc ▸ refusedWith_of_isRefusal h (by rw [hc]; rfl)⟩
  rw [code_eq_badAddr_iff h hseq hlen, not_addrOk_iff, not_overlapOk_iff]

/-! #### CIPHER_FAIL and HDR_MISMATCH -/

/-- A command that is not refused has its effect, all its checks passed. -/
theorem effect_of_not_isRefusal {i : Instr} {s t : State} (h : exec i s = .next t)
    (hc : t.status.code.isRefusal = false) : firstFailure (checksOf i s) = none ∧ t = effectOf i s := by
  obtain ⟨c, hfail, rfl⟩ | heffect := exec_cases h
  · exact absurd (refusal_of_firstFailure hfail) (by simpa using hc)
  · exact heffect

/-- PG_DECRYPT has passed its checks on page 1 only with the header's 24 bytes there (R135). -/
theorem le_len_of_pgDecrypt_pass {s : State} (h : firstFailure (checksOf .pgDecrypt s) = none)
    (hone : s.regs.param = 1) : 24 ≤ s.regs.len.toNat := by
  by_contra hlen
  rw [firstFailure_pgDecrypt, if_neg fun hok => hlen (hok.2 hone)] at h
  cases h

/-- The whole page through the cipher ends with CIPHER_FAIL exactly on a negative answer (R118). -/
theorem wholePage_fst_eq_cipherFail_iff {ans : PortAnswer} : (wholePage ans).1 = .cipherFail ↔ ans.ret.toInt < 0 := by
  rw [← cipherFailed_iff, wholePage]
  split <;> simp [*]

/-- Without header logic there is nothing to mismatch. -/
theorem wholePage_fst_ne_hdrMismatch {ans : PortAnswer} : (wholePage ans).1 ≠ .hdrMismatch := by
  rw [wholePage]
  split <;> exact Code.noConfusion

/-- The header logic ends with HDR_MISMATCH exactly when the cipher has not failed and the first eight bytes it returned
are not the saved ones (R132). -/
theorem headerOutcome_fst_eq_hdrMismatch_iff {p : Params} {pg : Bytes} {ans : PortAnswer} :
    (headerOutcome p pg ans).1 = .hdrMismatch ↔ 0 ≤ ans.ret.toInt ∧ ans.output.take 8 ≠ savedHeader pg := by
  rw [← cipherFailed_eq_false_iff, headerOutcome]
  split_ifs <;> simp [*]

section
variable {p : Params} {base : Bytes} {page : Word} {pg : Bytes}

/-- Decryption ends with CIPHER_FAIL exactly when its one transaction answers a negative number (R147). -/
theorem decryptPage_fst_eq_cipherFail_iff : (decryptPage p base page pg).1 = .cipherFail ↔
    (xform p .dec base page ((detectHeader p page pg).page.drop (detectHeader p page pg).off)).ret.toInt < 0 := by
  rw [← cipherFailed_iff]
  simp only [decryptPage, verifyRestore]
  split_ifs <;> simp [*]

/-- A page taken for the new scheme goes to the transform relocated, from byte 16 on (R129). -/
theorem detectHeader_of_newScheme (h : takesNewScheme p page pg = true) :
    detectHeader p page pg = ⟨relocate pg, 16, true⟩ := if_pos h

/-- Decryption ends with HDR_MISMATCH exactly when the new scheme is taken, the cipher has not failed, and the first
eight bytes returned are not the saved ones (R132, R148). -/
theorem decryptPage_fst_eq_hdrMismatch_iff (hlen : page = 1 → 24 ≤ pg.length) :
    (decryptPage p base page pg).1 = .hdrMismatch ↔ page = 1 ∧ newScheme (headerField p pg) = true ∧
      0 ≤ (xform p .dec base 1 ((detectHeader p page pg).page.drop 16)).ret.toInt ∧
      (xform p .dec base 1 ((detectHeader p page pg).page.drop 16)).output.take 8 ≠ savedHeader pg := by
  by_cases hboth : page = 1 ∧ newScheme (headerField p pg) = true
  · obtain ⟨rfl, hnew⟩ := hboth
    have htakes : takesNewScheme p 1 pg = true := Bool.and_eq_true_iff.2 ⟨rfl, hnew⟩
    have h16 : 16 ≤ pg.length := le_trans (by decide) (hlen rfl)
    rw [decryptPage_of_newScheme base h16 htakes rfl, detectHeader_of_newScheme htakes, relocate_drop h16,
      headerOutcome_fst_eq_hdrMismatch_iff, and_iff_right rfl, and_iff_right hnew]
  · have hlegacy : takesNewScheme p page pg = false :=
      takesNewScheme_eq_false fun hone => Bool.eq_false_iff.2 fun hnew => hboth ⟨hone, hnew⟩
    rw [decryptPage_of_not_newScheme base hlegacy]
    exact iff_of_false wholePage_fst_ne_hdrMismatch fun ⟨hone, hnew, _⟩ => hboth ⟨hone, hnew⟩

end

/-- Settles O28: past the checks only the page commands' effects report more than OK, and each reports what its one
transaction answered. -/
theorem cipherFailAndHdrMismatchExactly : Obligations.CipherFailAndHdrMismatchExactly := by
  unfold Obligations.CipherFailAndHdrMismatchExactly
  intro i s t h hc page base d
  obtain ⟨hpass, rfl⟩ := effect_of_not_isRefusal h hc
  cases i
  case pgEncrypt =>
    have hcode : (effectOf .pgEncrypt s).status.code = (wholePage (xform s.params .enc base s.regs.param page)).1 := rfl
    rw [hcode, wholePage_fst_eq_cipherFail_iff]
    exact ⟨by simp, iff_of_false wholePage_fst_ne_hdrMismatch (by simp)⟩
  case pgDecrypt =>
    have hcode : (effectOf .pgDecrypt s).status.code = (decryptPage s.params base s.regs.param page).1 := rfl
    have hlen : s.regs.param = 1 → 24 ≤ page.length := fun hone =>
      (memRead_length ..).symm ▸ le_len_of_pgDecrypt_pass hpass hone
    rw [hcode, decryptPage_fst_eq_cipherFail_iff, decryptPage_fst_eq_hdrMismatch_iff hlen]
    exact ⟨by simp [d], (and_iff_right rfl).symm⟩
  all_goals simp [effectOf]

end Sys2Proof.Machine
end

/-! ### Accesses without a move, a step without an access, and the first command after reset -/

section
namespace Sys2Proof.Machine

section
variable {s : State} {offset : Nat} {rest : List HostAccess}

/-- A write at an offset that is not a multiple of 4 has no move (R165). -/
theorem step_of_writeReg_misaligned {v : Word} (ho : offset % 4 ≠ 0)
    (h : s.host.pending = .writeReg offset v :: rest) : step s = .fault .registerAccessNotWholeWord := by
  rw [step_of_pending h]
  exact if_neg ho

/-- A read at an offset that is not a multiple of 4 has no move (R165). -/
theorem step_of_readReg_misaligned (ho : offset % 4 ≠ 0) (h : s.host.pending = .readReg offset :: rest) :
    step s = .fault .registerAccessNotWholeWord := by
  rw [step_of_pending h]
  exact if_neg ho

/-- An access narrower than a word has no move, whatever its offset (R165). -/
theorem step_of_partialReg {n : Nat} (h : s.host.pending = .partialReg offset n :: rest) :
    step s = .fault .registerAccessNotWholeWord :=
  step_of_pending h

/-- With no access pending a step changes nothing (R159). -/
theorem step_of_no_pending (h : s.host.pending = []) : step s = .next s := by
  simp [step, hostStep, h]

/-- A step on a command's word to be written to CMD is that command (R15). -/
theorem step_of_writeCmd_encode {i : Instr} (h : s.host.pending = .writeReg 0 (encode i) :: rest) :
    step s = exec i (s.accepting rest) := by
  rw [step_of_writeCmd h, startCommand_of_decode _ (decode_encode i)]

end

/-- Without an open context MD_UPDATE and MD_FINAL are refused with BAD_SEQ (R144). -/
theorem exec_badSeq_of_closed {i : Instr} {s : State} (hi : i = .mdUpdate ∨ i = .mdFinal)
    (hv : s.ctx0.valid = false) : ∃ t, exec i s = .next t ∧ RefusedWith .badSeq s t := by
  obtain rfl | rfl := hi
  · exact exec_of_closed rfl hv
  · exact exec_of_closed rfl hv

/-- Settles O9: the step is the access, whose own guard faults in each of the three forms. -/
theorem misshapenRegisterAccessHasNoMove : Obligations.MisshapenRegisterAccessHasNoMove := by
  unfold Obligations.MisshapenRegisterAccessHasNoMove
  exact fun _ _ _ _ _ => ⟨step_of_writeReg_misaligned, step_of_readReg_misaligned, step_of_partialReg⟩

/-- Settles O11: reset leaves CTX0 closed, and without an open context both commands are refused, which changes STATUS
only. -/
theorem nothingHappensWithoutAnAccess : Obligations.NothingHappensWithoutAnAccess := by
  unfold Obligations.NothingHappensWithoutAnAccess
  refine ⟨fun _ => step_of_no_pending, fun p buf i rest hi => ?_⟩
  have hclosed : (State.resetWith p buf).ctx0.valid = false := rfl
  obtain ⟨t, hexec, rfl⟩ := exec_badSeq_of_closed
    (s := ((State.resetWith p buf).loaded (.writeReg 0 (encode i) :: rest)).accepting rest) hi hclosed
  exact ⟨_, (step_of_writeCmd_encode rfl).trans hexec, rfl, rfl⟩

end Sys2Proof.Machine
end
